-- ==== Sys2Proof/Word.lean ====
section
/-!
DEFINITION. The word types of BSC-CMD and their plainest arithmetic (spec/00_scope.md R8 and R10).
-/

namespace Sys2Proof

/-- A stream byte, a register of eight bits, or a character (R8). Bit 0 is the least significant. -/
abbrev Byte := BitVec 8

/-- A command word `cmd[15:0]` (R58). -/
abbrev CmdWord := BitVec 16

/-- The string operand `cstr[63:0]`, or the string result `rstr[63:0]` (R58, R68). -/
abbrev StrBus := BitVec 64

/-- `ones(n) = 2^n - 1` (R10). -/
def ones (n : Nat) : Nat := 2 ^ n - 1

/-- The concatenation `{a, b}` of a high and a low byte into sixteen bits (R10). -/
def concatBytes (a b : Byte) : BitVec 16 := a ++ b

end Sys2Proof
end

