-- ==== Sys2Proof/Syntax.lean ====
section
/-!
DEFINITION. The eight commands of BSC-CMD version 1, one constructor per row of spec/opcode_table.json
(spec/30_encoding.md R65). Operands are natural numbers, as R62 gives them; WellFormed.lean holds their
ranges. SETS's string travels on its own bus and is no part of the command (R59).
-/

namespace Sys2Proof

/-- A command of BSC-CMD (R65). -/
inductive Instr where
  /-- `INIT w`: bind the cursor with requested width `WREQ` (R82). -/
  | init (wreq : Nat)
  /-- `GET`: answer the segment value (R86). -/
  | get
  /-- `GETS`: answer the segment value as a string (R87). -/
  | gets
  /-- `SET v`: write the segment value `VAL8` (R89). -/
  | set (val8 : Nat)
  /-- `SETS "c..."`: write the segment value from a string of length `LEN` (R95). -/
  | sets (len : Nat)
  /-- `MVL`: move one segment left (R97). -/
  | mvl
  /-- `MVR`: move one segment right (R100). -/
  | mvr
  /-- `MASK L, n` or `MASK R, n`: build a mask with `ZC` zeros on the side `ZL` (R72). -/
  | mask (zl : Bool) (zc : Nat)
deriving DecidableEq, Repr

end Sys2Proof
end

