-- ==== Sys2Proof/Decode.lean ====
section
/-!
DEFINITION. The command decoder, total on every word and rejecting by name, and after it the encoder, both
written from the formats and the opcode map of spec/30_encoding.md (R60 to R66).
-/

namespace Sys2Proof

/-- Why a command word is illegal (R66). Both answer ILLEGAL_COMMAND. -/
inductive IllegalWord where
  /-- The opcode is 0x0 or 0x9..0xF. -/
  | unknownOpcode
  /-- A reserved bit of the opcode's format is 1. -/
  | reservedBit
deriving DecidableEq, Repr

/-- The opcode field `OP = cmd[15:12]` (R60). -/
def opcodeOf (cmd : CmdWord) : Nat := (cmd.extractLsb' 12 4).toNat

/-- `cmd[3:0]`: `WREQ` of format I, `ZC` of format K (R61, R62). -/
def lowNibbleOf (cmd : CmdWord) : Nat := (cmd.extractLsb' 0 4).toNat

/-- `cmd[7:0]`: `VAL8` of format V, `LEN` of format S (R61, R62). -/
def lowByteOf (cmd : CmdWord) : Nat := (cmd.extractLsb' 0 8).toNat

/-- `ZL = cmd[4]` of format K (R61, R62). -/
def zlOf (cmd : CmdWord) : Bool := cmd.getLsbD 4

/-- The command when the format's reserved bits, given as a number, are all 0; otherwise a refusal (R66). -/
def whenZero (reserved : Nat) (i : Instr) : Except IllegalWord Instr :=
  if reserved = 0 then .ok i else .error .reservedBit

/-- The decoder (R65, R66). Reserved are `cmd[11:0]` in format N, `cmd[11:4]` in I, `cmd[11:8]` in V and S,
`cmd[11:5]` in K. -/
def decode (cmd : CmdWord) : Except IllegalWord Instr :=
  match opcodeOf cmd with
  | 0x1 => whenZero (cmd.extractLsb' 4 8).toNat (.init (lowNibbleOf cmd))
  | 0x2 => whenZero (cmd.extractLsb' 0 12).toNat .get
  | 0x3 => whenZero (cmd.extractLsb' 0 12).toNat .gets
  | 0x4 => whenZero (cmd.extractLsb' 8 4).toNat (.set (lowByteOf cmd))
  | 0x5 => whenZero (cmd.extractLsb' 8 4).toNat (.sets (lowByteOf cmd))
  | 0x6 => whenZero (cmd.extractLsb' 0 12).toNat .mvl
  | 0x7 => whenZero (cmd.extractLsb' 0 12).toNat .mvr
  | 0x8 => whenZero (cmd.extractLsb' 5 7).toNat (.mask (zlOf cmd) (lowNibbleOf cmd))
  | _ => .error .unknownOpcode

/-- The word with opcode `op` in `cmd[15:12]` and operand field `arg` in `cmd[11:0]` (R60). -/
def wordOf (op arg : Nat) : CmdWord := BitVec.ofNat 4 op ++ BitVec.ofNat 12 arg

/-- The encoder (R61, R65): the command word of a well-formed command. -/
def encode : Instr → CmdWord
  | .init wreq => wordOf 0x1 wreq
  | .get => wordOf 0x2 0
  | .gets => wordOf 0x3 0
  | .set val8 => wordOf 0x4 val8
  | .sets len => wordOf 0x5 len
  | .mvl => wordOf 0x6 0
  | .mvr => wordOf 0x7 0
  | .mask zl zc => wordOf 0x8 ((if zl then 16 else 0) + zc)

/-- What the decoder reads from `nbits` bits numbered as spec/opcode_table.json numbers them, the bits above
them 0. A command is exactly one 16-bit word (R59), so a longer number is none. -/
def decodeTableWord (nbits w : Nat) : Option Instr :=
  if w % 2 ^ nbits < 2 ^ 16 then
    match decode (BitVec.ofNat 16 (w % 2 ^ nbits)) with
    | .ok i => some i
    | .error _ => none
  else none

end Sys2Proof
end

