-- ==== Sys2Proof/Config.lean ====
section
/-!
DEFINITION. What an implementation of BSC fixes and the spec leaves open (spec/00_scope.md R7,
spec/93_implementation_defined.md U1, P1, P2). Nothing here that is opaque has a value a proof could use.
-/

namespace Sys2Proof

/-- The two parameters that bound the stream (R7). A state carries them as plain data, so that a statement
about every state is one about every machine (log 3). -/
structure Params where
  /-- `STREAM_CAPACITY`, the largest stream length in bytes. -/
  streamCapacity : Nat
  /-- `OFFSET_W`, the width in bits of the byte-offset register. -/
  offsetW : Nat
deriving DecidableEq, Repr

/-- The constraint of R7: `STREAM_CAPACITY + 1 < 2^OFFSET_W`. -/
abbrev Params.fits (p : Params) : Prop := p.streamCapacity + 1 < 2 ^ p.offsetW

/-- `STREAM_CAPACITY` of this machine: OPEN (R7, P1), so uninterpreted. -/
opaque Config.streamCapacity : Nat

/-- By how much `OFFSET_W` exceeds the least width that R7 allows: OPEN (R7, P2), so uninterpreted. -/
opaque Config.offsetWSlack : Nat

/-- The parameters of this machine. As `offsetWSlack` ranges over the naturals, `offsetW` ranges over
exactly the widths that R7 allows. -/
def Config.params : Params :=
  { streamCapacity := Config.streamCapacity
    offsetW := Nat.log2 (Config.streamCapacity + 1) + 1 + Config.offsetWSlack }

/-- `MASK_INVALID(zl, zc)` for `zc > 8` (R70, U1): a draw, any byte, under no law. The first argument counts
the draws taken, so that two draws need not agree (log 4). -/
opaque Config.maskInvalid : Nat → Bool → Nat → Byte

end Sys2Proof
end

