-- ==== Sys2Proof/Machine/State.lean ====
section
/-!
DEFINITION. The state of the machine, as plain data: the seven registers of spec/10_state.md R18, the byte
stream of spec/20_memory.md R37, and the model's own fields for the inputs and outputs of a step (R17).
-/

namespace Sys2Proof.Machine

/-- The binding state `BSTATE` (R19). The value 3 of the 2-bit register is never held (R18, log 14). -/
inductive BState where
  /-- No INIT has completed since reset. -/
  | unbound
  /-- The last INIT opened its stream. -/
  | bound
  /-- The last INIT failed to open its stream. -/
  | failed
deriving DecidableEq, Repr

/-- The cursor registers (R18): all of BSC's architectural state (R17). -/
structure Regs where
  /-- `BSTATE`, 2 bits: the binding state (R19). -/
  bstate : BState
  /-- `WIDTH`, 4 bits: the number of bits a segment spans (R20). -/
  width : BitVec 4
  /-- `BOFF`, `OFFSET_W` bits: the index of the byte holding the segment's first bit (R21; log 2). -/
  boff : Nat
  /-- `SIDX`, 3 bits: the bit offset in that byte, 0 = most significant (R21). -/
  sidx : BitVec 3
  /-- `CURB`, 8 bits: the cached copy of the stream byte at `BOFF` (R22). -/
  curb : Byte
  /-- `VAL`, 8 bits: the segment's bits, right-justified (R23). -/
  val : Byte
  /-- `EMPTY`, 1 bit: the stream has no byte yet (R24, R29). -/
  empty : Bool
deriving DecidableEq, Repr

/-- The byte stream `M` (R37): the pairs of an index and its byte, canonical when the indices are
0, 1, ..., L-1 in order. An unlisted index reads as end-of-file (R40, log 1). -/
abbrev Memory := List Host.Cell

/-- One access at the stream port (R12, R39 to R41). -/
inductive Access where
  /-- `StreamOpen()`. -/
  | openStream
  /-- `MemRead(i, 1)`, whether it answers a byte or Eof. -/
  | read (i : Nat)
  /-- `MemWrite(i, 1, v)`. -/
  | write (i : Nat) (v : Byte)
deriving DecidableEq, Repr

/-- A response (R68). -/
structure Response where
  /-- `ok`, 1 bit. -/
  ok : Bool
  /-- `err`, 3 bits: 0 when `ok = 1`, otherwise a code of R108. -/
  err : BitVec 3
  /-- `rdata`, 8 bits: the byte result of GET and MASK. -/
  rdata : Byte
  /-- `rlen`, 8 bits: the string length of GETS. -/
  rlen : BitVec 8
  /-- `rstr`, 64 bits: the characters of GETS, character i in bits 8i+7..8i. -/
  rstr : StrBus
deriving DecidableEq, Repr

/-- The error kinds of R108; `Err.code` gives their numbers. -/
inductive Err where
  | invalidSegmentValue
  | boundaryViolation
  | streamOpenError
  | notBound
  | illegalCommand
deriving DecidableEq, Repr

/-- What a command brings beside its word (R17, R58): the inputs of a step. -/
structure StepInput where
  /-- The string operand bus `cstr[63:0]`, which only SETS reads (R58, R67). -/
  cstr : StrBus
  /-- Whether the stream answers `Ok` to a `StreamOpen()` of this command (R39, P3; log 6). -/
  openOk : Bool
deriving DecidableEq, Repr

/-- A command as the host presents it (R58). -/
structure Command where
  /-- The command word `cmd[15:0]`. -/
  word : CmdWord
  /-- The other inputs of its step. -/
  input : StepInput
deriving DecidableEq, Repr

/-- What can reach BSC or its stream from outside (R58, R114, R121, R122, R127). -/
inductive HostInput where
  /-- The host presents a command (R58). -/
  | command (c : Command)
  /-- A hardware reset between commands (R121, R122). -/
  | reset
  /-- A hardware reset while `c` executes, after the first `k` of its stream writes (R122, P5; log 9). -/
  | resetDuring (c : Command) (k : Nat)
  /-- Something other than BSC gives the stream other contents; only while it is not bound (R126, R127, P3;
  log 10). -/
  | loadStream (bytes : List Byte)
deriving DecidableEq, Repr

/-- The machine's state. -/
structure State where
  /-- The stream's parameters (R7); no step changes them (log 3). -/
  params : Params
  /-- The cursor registers (R18). -/
  regs : Regs
  /-- The byte stream `M` (R37). -/
  stream : Memory
  /-- The inputs of the command being executed (R17; log 6). -/
  input : StepInput
  /-- The host's inputs still to come, the next one first (log 5). -/
  inbox : List HostInput
  /-- The response port: the response to the last command, none after a reset (R68, R121; log 7). -/
  resp : Option Response
  /-- The stream accesses of the last command, in order (R52, R53; log 8). -/
  accesses : List Access
  /-- The number of draws taken from `Config.maskInvalid` (log 4). -/
  draws : Nat
deriving DecidableEq, Repr

/-- The status outputs (R36): every register as the host sees it. BOFF is shown as a number (log 2). -/
structure StatusOutputs where
  bstate : BitVec 2
  width : BitVec 4
  boff : Nat
  sidx : BitVec 3
  curb : Byte
  val : Byte
  empty : BitVec 1
deriving DecidableEq, Repr

/-- Where the model stops because the spec gives no meaning (R112). A fault is final. -/
inductive Fault where
  /-- Raised by INIT, SET, SETS and MVL, and by a reset during SET or SETS, in a state that the invariants of
  spec/10_state.md exclude (R33, R112, P4; log 11). Safe: the hardware may go on there, and no claim about going on can be proved. -/
  | invariantBroken
  /-- Raised by SET and SETS, and by a reset during one, for a write that would make L exceed `STREAM_CAPACITY` (R41, R112, P1). Safe: the
  spec does not say what the hardware does. -/
  | streamFull
deriving DecidableEq, Repr

/-- Inputs that are no moves of the model's host, and instructions without a meaning. -/
inductive Refusal where
  /-- An instruction that has no meaning yet. No arm of `exec` answers it. Safe. -/
  | notModelled (mnemonic : String)
  /-- Raised by the input `loadStream` while the stream is bound: the host duty of R126 gives the host no such
  move (U7, log 10). Safe: claims about a broken duty are refused. -/
  | streamHeldByCursor
  /-- Raised by the input `loadStream` with more bytes than `STREAM_CAPACITY`: no stream is that long (R7,
  log 10). Safe. -/
  | streamTooLong
deriving DecidableEq, Repr

/-- The registers after the reset event (R18, R121). -/
def Regs.reset : Regs :=
  { bstate := .unbound, width := 8, boff := 0, sidx := 0, curb := 0, val := 0, empty := true }

/-- The machine right after reset (R121): the registers as R18 gives them, no response, no access; a stream
with no byte and nothing from the host yet (logs 1, 3 to 8). -/
def State.reset : State :=
  { params := Config.params
    regs := Regs.reset
    stream := []
    input := { cstr := 0, openOk := true }
    inbox := []
    resp := none
    accesses := []
    draws := 0 }

end Sys2Proof.Machine
end

