-- ==== Sys2Proof/Machine/Flags.lean ====
section
/-!
DEFINITION. The one stored flag, EMPTY (spec/10_state.md R24, R35), the response flags `ok` and `err`
(spec/30_encoding.md R68, spec/60_exceptions.md R108), and the codes of the status outputs.
-/

namespace Sys2Proof.Machine

/-- EMPTY after an INIT that opened a stream of length `len` (R83). -/
def emptyAfterOpen (len : Nat) : Bool := decide (len = 0)

/-- EMPTY after a failed INIT (R84). -/
def emptyAfterFailedOpen : Bool := true

/-- EMPTY after a SET or SETS that wrote: cleared (R89). -/
def emptyAfterWrite : Bool := false

/-- The code of BSTATE as a status output (R18). -/
def BState.code : BState → BitVec 2
  | .unbound => 0
  | .bound => 1
  | .failed => 2

/-- The error code of the `err` field (R108). -/
def Err.code : Err → BitVec 3
  | .invalidSegmentValue => 1
  | .boundaryViolation => 2
  | .streamOpenError => 3
  | .notBound => 4
  | .illegalCommand => 5

/-- The response of a command that succeeds; a field it omits is 0 (R14, R68). -/
def okResponse (data : Byte) (rlen : BitVec 8) (rstr : StrBus) : Response :=
  { ok := true, err := 0, rdata := data, rlen := rlen, rstr := rstr }

/-- The response of a command that raises `e` (R14, R68): every other field is 0. -/
def errResponse (e : Err) : Response :=
  { ok := false, err := e.code, rdata := 0, rlen := 0, rstr := 0 }

end Sys2Proof.Machine
end

