-- ==== Sys2Proof/Machine/Operands.lean ====
section
/-!
DEFINITION. The combinational datapath (spec/40_datapath_mask.md R70 to R80), the width clamp (spec/00_scope.md
R15) and the string forms of the segment value (spec/30_encoding.md R62, R63). Every function is pure.
-/

namespace Sys2Proof.Machine

/-- `clampw(x)` (R15): a requested width outside [1,8] becomes 8. -/
def clampw (x : Nat) : Nat := if 1 ≤ x ∧ x ≤ 8 then x else 8

/-! The bit-mask generator. -/

/-- `Mask(zl, n)` for `0 <= n <= 8` (R70): `n` zeros on the most-significant side when `zl`, else on the
least-significant side, and ones elsewhere. -/
def maskGen (zl : Bool) (n : Nat) : Byte := if zl then 0xFF#8 >>> n else 0xFF#8 <<< n

/-- `setBitsOn(x, m) = x | m` (R73). -/
def setBitsOn (x m : Byte) : Byte := x ||| m

/-- `clearBitsOn(x, m) = x & m` (R73): `m` marks the bits to keep. -/
def clearBitsOn (x m : Byte) : Byte := x &&& m

/-! The position decoder (R74). -/

/-- `pos(BOFF, SIDX)`: the stream bit position of the segment's first bit. -/
def pos (boff sidx : Nat) : Nat := 8 * boff + sidx

/-- The byte offset of `dec(q)`. -/
def decByte (q : Nat) : Nat := q / 8

/-- The bit index of `dec(q)`. -/
def decBit (q : Nat) : Nat := q % 8

/-- `single(SIDX, w)`: the segment lies in byte BOFF alone. -/
def single (sidx w : Nat) : Bool := decide (sidx + w ≤ 8)

/-- `n1(SIDX)`: the bits of a straddling segment in byte BOFF. -/
def n1 (sidx : Nat) : Nat := 8 - sidx

/-- `n2(SIDX, w)`: the bits of a straddling segment in byte BOFF+1. -/
def n2 (sidx w : Nat) : Nat := sidx + w - 8

/-- `endbyte(BOFF, SIDX, w)`: the byte that holds the segment's last bit. -/
def endbyte (boff sidx w : Nat) : Nat := (pos boff sidx + w - 1) / 8

/-- `next(BOFF, SIDX, w)`: the pair of byte offset and bit index one segment to the right. -/
def nextPos (boff sidx w : Nat) : Nat × Nat := (decByte (pos boff sidx + w), decBit (pos boff sidx + w))

/-- `prev(BOFF, SIDX, w)`: the pair one segment to the left; it needs `p >= w`. -/
def prevPos (boff sidx w : Nat) : Nat × Nat := (decByte (pos boff sidx - w), decBit (pos boff sidx - w))

/-- `segindex(BOFF, SIDX, w)`: the segment number n of R45. -/
def segindex (boff sidx w : Nat) : Nat := pos boff sidx / w

/-! The segment extractor and inserter. -/

/-- `Extract(hi, lo, s, w)` (R75): the `w`-bit field that starts `s` bits below the top of `{hi, lo}`. -/
def extract (hi lo : Byte) (s w : Nat) : Byte :=
  ((concatBytes hi lo >>> (16 - s - w)) &&& BitVec.ofNat 16 (ones w)).setWidth 8

/-- `InsertSingle(B, s, w, v)` for `s + w <= 8` (R76): the segment's bits replaced, the others kept. -/
def insertSingle (b : Byte) (s w : Nat) (v : Byte) : Byte :=
  setBitsOn (clearBitsOn b (maskGen false (8 - s) ||| maskGen true (s + w))) (v <<< (8 - s - w))

/-- `InsertHi(B, s, w, v)` for `s + w > 8` (R77): the high part of `v` in the low `8 - s` bits. -/
def insertHi (b : Byte) (s w : Nat) (v : Byte) : Byte :=
  setBitsOn (clearBitsOn b (maskGen false (n1 s))) (v >>> n2 s w)

/-- `InsertLo(N, s, w, v)` for `s + w > 8` (R78): the low `n2` bits of `v` in the high `n2` bits. -/
def insertLo (n : Byte) (s w : Nat) (v : Byte) : Byte :=
  setBitsOn (clearBitsOn n (maskGen true (n2 s w)))
    ((v &&& BitVec.ofNat 8 (ones (n2 s w))) <<< (8 - n2 s w))

/-! Segment strings. -/

/-- The character '0' (R63). PRESUMED by the spec itself: ASCII, from general knowledge (G1, log 12). -/
def char0 : Byte := 0x30

/-- The character '1' (R63). PRESUMED as `char0` (G1, log 12). -/
def char1 : Byte := 0x31

/-- `chr(i) = cstr[8*i+7 : 8*i]` (R62); past the eight slots there is no character, and it reads 0x00. -/
def strChar (str : StrBus) (i : Nat) : Byte := str.extractLsb' (8 * i) 8

/-- The digit a character stands for, if it is '0' or '1' (R63). -/
def digitOf (c : Byte) : Option Nat :=
  if c = char0 then some 0 else if c = char1 then some 1 else none

/-- The value of the first `n` characters, the first one most significant, as the loop of R95 computes it;
none where a character is neither '0' nor '1'. -/
def strValue (str : StrBus) : Nat → Option Nat
  | 0 => some 0
  | n + 1 =>
    match strValue str n, digitOf (strChar str n) with
    | some v, some d => some (2 * v + d)
    | _, _ => none

/-- Character `i` of the string that renders the low `w` bits of `v`, most significant first, and 0x00 in the
slots from `w` on (R87). -/
def valChar (v : Byte) (w i : Nat) : Byte :=
  if i < w then (if v.getLsbD (w - 1 - i) then char1 else char0) else 0

/-- The string result of GETS, character `i` in bits 8i+7..8i (R87, R68). -/
def valStr (v : Byte) (w : Nat) : StrBus :=
  valChar v w 7 ++ valChar v w 6 ++ valChar v w 5 ++ valChar v w 4 ++
    valChar v w 3 ++ valChar v w 2 ++ valChar v w 1 ++ valChar v w 0

end Sys2Proof.Machine
end

