-- ==== Sys2Proof/Machine/Ops.lean ====
section
/-!
DEFINITION. The named operations over the stream and the registers (spec/20_memory.md R37 to R47), and the two
ways a command ends: `respond` and `raise` (spec/00_scope.md R14, spec/60_exceptions.md R107 to R111).
-/

namespace Sys2Proof.Machine

/-! Registers: updates by name. -/

/-- Write the registers together, as a command does when it completes (R11). -/
def State.setRegs (r : Regs) (s : State) : State := { s with regs := r }

/-- Replace the stream's contents. -/
def State.setStream (m : Memory) (s : State) : State := { s with stream := m }

/-- Drive the response port (R68). -/
def State.setResp (r : Option Response) (s : State) : State := { s with resp := r }

/-- Record an access at the stream port (R52). -/
def State.addAccess (a : Access) (s : State) : State := { s with accesses := s.accesses ++ [a] }

/-- Count a draw (log 4). -/
def State.nextDraw (s : State) : State := { s with draws := s.draws + 1 }

/-- WIDTH as a number, `w` in the rules. -/
def Regs.w (r : Regs) : Nat := r.width.toNat

/-- SIDX as a number, `s` in the rules. -/
def Regs.s (r : Regs) : Nat := r.sidx.toNat

/-- The position `p = 8*BOFF + SIDX` (R21). -/
def Regs.p (r : Regs) : Nat := pos r.boff r.s

/-- The status outputs always show the registers' current values (R36). -/
def State.status (s : State) : StatusOutputs :=
  { bstate := s.regs.bstate.code, width := s.regs.width, boff := s.regs.boff, sidx := s.regs.sidx
    curb := s.regs.curb, val := s.regs.val, empty := BitVec.ofBool s.regs.empty }

/-- The stream position the source document speaks of is BOFF by definition (R43). -/
def State.streamPosition (s : State) : Nat := s.regs.boff

/-! The byte stream. -/

/-- The byte at index `i`, or none: end-of-file (R40). -/
def Memory.byteAt : Memory → Nat → Option Byte
  | [], _ => none
  | (a, b) :: m, i => if a = i then some b else Memory.byteAt m i

/-- The stream's length `L` (R37). -/
def Memory.len (m : Memory) : Nat := m.length

/-- The stream with byte `v` at index `i`: replaced where listed, otherwise listed in its place (R41). -/
def Memory.put : Memory → Nat → Byte → Memory
  | [], i, v => [(i, v)]
  | (a, b) :: m, i, v =>
    if i < a then (i, v) :: (a, b) :: m
    else if i = a then (i, v) :: m
    else (a, b) :: Memory.put m i v

/-- The indices are `n, n+1, ...` in order. -/
def Memory.wfFrom : Nat → Memory → Bool
  | _, [] => true
  | n, (a, _) :: m => (a == n) && Memory.wfFrom (n + 1) m

/-- The canonical form: the indices listed are exactly 0, 1, ..., L-1, in order (R37). -/
def Memory.wf (m : Memory) : Bool := Memory.wfFrom 0 m

/-- The cells of a byte sequence from index `n` on. -/
def Memory.ofBytesFrom : Nat → List Byte → Memory
  | _, [] => []
  | n, b :: bs => (n, b) :: Memory.ofBytesFrom (n + 1) bs

/-- The stream `M[0], ..., M[L-1]` of a byte sequence (R37). -/
def Memory.ofBytes (bs : List Byte) : Memory := Memory.ofBytesFrom 0 bs

/-- `ReadOrZero(i)` (R13): a phantom byte is 0x00. -/
def Memory.readOrZero (m : Memory) (i : Nat) : Byte := (m.byteAt i).getD 0

/-- The stream bit at position `q`, counted from the most-significant bit of byte 0 (R9, R46). -/
def Memory.sbit (m : Memory) (q : Nat) : Nat := ((m.readOrZero (q / 8)).toNat >>> (7 - q % 8)) &&& 1

/-- The stream segment value `Seg(p, w)` (R46). -/
def Memory.seg (m : Memory) (p w : Nat) : Nat :=
  ((List.range w).map fun j => m.sbit (p + j) <<< (w - 1 - j)).sum

/-- `StreamOpen()` (R39): `Ok(L)` as `some L`, or `Fail` as none, as the step's input says. -/
def streamOpen (s : State) : Option Nat × State :=
  (if s.input.openOk then some s.stream.len else none, s.addAccess .openStream)

/-- `MemRead(i, 1)` (R12, R40): `Data` or `Eof`. It changes neither M nor L. -/
def memRead (i : Nat) (s : State) : Option Byte × State := (s.stream.byteAt i, s.addAccess (.read i))

/-- `ReadOrZero(i)` as an access of a command (R13). -/
def readOrZero (i : Nat) (s : State) : Byte × State := (s.stream.readOrZero i, s.addAccess (.read i))

/-- `MemWrite(i, 1, v)` (R12, R41): it replaces at `i < L` and appends at `i = L`. An append beyond
`STREAM_CAPACITY` is the fault StreamFull; `i > L`, which the invariants exclude, is InvariantBroken (log 11). -/
def memWrite (i : Nat) (v : Byte) (s : State) : Except Fault State :=
  if s.stream.len < i then .error .invariantBroken
  else if i = s.stream.len ∧ s.params.streamCapacity < s.stream.len + 1 then .error .streamFull
  else .ok ((s.setStream (s.stream.put i v)).addAccess (.write i v))

/-- Several writes, one after another (R52). -/
def memWrites : List (Nat × Byte) → State → Except Fault State
  | [], s => .ok s
  | (i, v) :: ws, s =>
    match memWrite i v s with
    | .ok s' => memWrites ws s'
    | .error f => .error f

/-! How a command ends. -/

/-- `respond(ok, data, rlen, rstr)` (R14): the command succeeds with one response. -/
def respond (data : Byte) (rlen : BitVec 8) (rstr : StrBus) (s : State) :
    Host.Outcome State Fault Refusal :=
  .next (s.setResp (some (okResponse data rlen rstr)))

/-- `raise E` (R14, R107, R111): the one way an error is taken. It answers `ok = 0` with the error's code and
changes nothing else: BSC has no saved state, vector or mode, and no return from an error. -/
def raise (e : Err) (s : State) : Host.Outcome State Fault Refusal :=
  .next (s.setResp (some (errResponse e)))

/-- The error of a command that needs a bound cursor, if the cursor is not bound (R109, R110 step 2). -/
def bindingError (s : State) : Option Err :=
  match s.regs.bstate with
  | .bound => none
  | .unbound => some .notBound
  | .failed => some .streamOpenError

/-! Writing the segment: what SET and SETS share. -/

/-- Whether a write of the segment needs byte BOFF + 1 (R89, R92). -/
def straddles (s : State) : Bool := !s.regs.empty && !single s.regs.s s.regs.w

/-- The stream writes that put `v` into the segment, in the order of R53: left-justified at index 0 on an empty
stream (R90), merged into CURB alone (R91), or into CURB and the byte after it (R92). -/
def segmentWrites (v : Byte) (s : State) : List (Nat × Byte) :=
  if s.regs.empty then [(0, v <<< (8 - s.regs.w))]
  else if single s.regs.s s.regs.w then
    [(s.regs.boff, insertSingle s.regs.curb s.regs.s s.regs.w v)]
  else
    [(s.regs.boff, insertHi s.regs.curb s.regs.s s.regs.w v),
      (s.regs.boff + 1, insertLo (s.stream.readOrZero (s.regs.boff + 1)) s.regs.s s.regs.w v)]

/-- CURB after the segment is written with `v`: the byte now at BOFF (R90 to R92). -/
def segmentCurb (v : Byte) (s : State) : Byte :=
  if s.regs.empty then v <<< (8 - s.regs.w)
  else if single s.regs.s s.regs.w then insertSingle s.regs.curb s.regs.s s.regs.w v
  else insertHi s.regs.curb s.regs.s s.regs.w v

/-- The registers after the segment is written with `v` (R89): `VAL`, `CURB` and `EMPTY` change. -/
def segmentRegs (v : Byte) (s : State) : Regs :=
  { s.regs with empty := emptyAfterWrite, curb := segmentCurb v s, val := v }

/-- Write the segment with a value below `2^w` and respond (R89 to R93): the read of byte BOFF + 1 where the
segment straddles, the writes, then the registers. -/
def writeSegment (v : Byte) (s : State) : Host.Outcome State Fault Refusal :=
  match memWrites (segmentWrites v s)
      (if straddles s then (readOrZero (s.regs.boff + 1) s).2 else s) with
  | .error f => .fault f
  | .ok s' => respond 0 0 0 (s'.setRegs (segmentRegs v s))

/-- SET's check (R88): the value uses a bit at or above bit `w`. -/
def tooWide (v : Nat) (s : State) : Bool := decide (2 ^ s.regs.w ≤ v)

/-- The value of the string operand if SETS accepts it: the length is WIDTH and every character up to it is
'0' or '1' (R95). -/
def stringOperand (len : Nat) (s : State) : Option Nat :=
  if len = s.regs.w then strValue s.input.cstr s.regs.w else none

/-! Reset. -/

/-- The reset event (R121, R123): the registers take their reset values; no response, no access; the stream is
not touched. -/
def resetEvent (s : State) : State :=
  { s with regs := Regs.reset, resp := none, accesses := [] }

end Sys2Proof.Machine
end

