-- ==== Sys2Proof/Machine/Binding.lean ====
section
/-!
DEFINITION. INIT, the construction of the cursor (spec/41_init.md R81 to R85).
-/

namespace Sys2Proof.Machine

/-- The registers INIT installs beside BSTATE, EMPTY, CURB and VAL (R82): the position is segment 0. -/
def initRegs (b : BState) (w : Nat) (empty : Bool) (curb val : Byte) : Regs :=
  { bstate := b, width := BitVec.ofNat 4 w, boff := 0, sidx := 0, curb := curb, val := val, empty := empty }

/-- INIT (R82). It runs in every binding state and reads nothing of the previous one (R85). The one path
without a response, a non-empty stream without byte 0, is excluded by the stream's canonical form (log 11). -/
def execInit (wreq : Nat) (s : State) : Host.Outcome State Fault Refusal :=
  match streamOpen s with
  | (none, s1) =>
    raise .streamOpenError
      (s1.setRegs (initRegs .failed (clampw wreq) emptyAfterFailedOpen 0 0))
  | (some len, s1) =>
    if len = 0 then
      respond 0 0 0 (s1.setRegs (initRegs .bound (clampw wreq) (emptyAfterOpen len) 0 0))
    else
      match memRead 0 s1 with
      | (none, _) => .fault .invariantBroken
      | (some b, s2) =>
        respond 0 0 0
          (s2.setRegs (initRegs .bound (clampw wreq) (emptyAfterOpen len) b (extract b 0 0 (clampw wreq))))

end Sys2Proof.Machine
end

