-- ==== Sys2Proof/Machine/MaskUtility.lean ====
section
/-!
DEFINITION. MASK, the one command of the bit-mask generator (spec/40_datapath_mask.md R70 to R72).
-/

namespace Sys2Proof.Machine

/-- MASK (R72). It runs in every binding state, reads and writes no register and no stream byte, and has no
failure path: for `zc > 8` the byte is the draw MASK_INVALID (R70, U1; log 4). -/
def execMask (zl : Bool) (zc : Nat) (s : State) : Host.Outcome State Fault Refusal :=
  if zc ≤ 8 then respond (maskGen zl zc) 0 0 s
  else respond (Config.maskInvalid s.draws zl zc) 0 0 s.nextDraw

end Sys2Proof.Machine
end

