-- ==== Sys2Proof/Machine/Navigation.lean ====
section
/-!
DEFINITION. Navigation: MVL and MVR (spec/43_navigation.md R96 to R103). Neither writes the stream, and a
failed move changes nothing.
-/

namespace Sys2Proof.Machine

/-- MVL's failure condition (R96). -/
def atStart (s : State) : Bool := s.regs.empty || (decide (s.regs.boff = 0) && decide (s.regs.s = 0))

/-- MVL (R97): within CURB when SIDX >= WIDTH, otherwise into the previous byte. Its two faults are those of the
pseudocode (R33). -/
def execMvl (s : State) : Host.Outcome State Fault Refusal :=
  match bindingError s with
  | some e => raise e s
  | none =>
    if atStart s then raise .boundaryViolation s
    else if s.regs.w ≤ s.regs.s then
      respond 0 0 0
        (s.setRegs
          { s.regs with
            val := extract s.regs.curb 0 (s.regs.s - s.regs.w) s.regs.w
            sidx := BitVec.ofNat 3 (s.regs.s - s.regs.w) })
    else if s.regs.boff = 0 then .fault .invariantBroken
    else
      match memRead (s.regs.boff - 1) s with
      | (none, _) => .fault .invariantBroken
      | (some b, s1) =>
        respond 0 0 0
          (s1.setRegs
            { s.regs with
              val := extract b s.regs.curb (s.regs.s + 8 - s.regs.w) s.regs.w
              curb := b
              boff := s.regs.boff - 1
              sidx := BitVec.ofNat 3 (s.regs.s + 8 - s.regs.w) })

/-- The current byte after a move to byte `b'`: CURB where the byte stays the same, otherwise read (R100). -/
def nextCurb (b' : Nat) (s : State) : Byte × State :=
  if b' = s.regs.boff then (s.regs.curb, s) else readOrZero b' s

/-- The byte after `b'` where the new segment straddles into it, otherwise 0x00 without a read (R100). -/
def nextLow (b' s' w : Nat) (s : State) : Byte × State :=
  if 8 < s' + w then readOrZero (b' + 1) s else (0, s)

/-- MVR (R99, R100): a probe of the byte that holds the segment's last bit, then the new segment. -/
def execMvr (s : State) : Host.Outcome State Fault Refusal :=
  match bindingError s with
  | some e => raise e s
  | none =>
    if s.regs.empty then raise .boundaryViolation s
    else
      match memRead (endbyte s.regs.boff s.regs.s s.regs.w) s with
      | (none, s1) => raise .boundaryViolation s1
      | (some _, s1) =>
        let np := nextPos s.regs.boff s.regs.s s.regs.w
        let c := nextCurb np.1 s1
        let n := nextLow np.1 np.2 s.regs.w c.2
        respond 0 0 0
          (n.2.setRegs
            { s.regs with
              val := extract c.1 n.1 np.2 s.regs.w
              curb := c.1
              boff := np.1
              sidx := BitVec.ofNat 3 np.2 })

end Sys2Proof.Machine
end

