-- ==== Sys2Proof/Machine/SegmentAccess.lean ====
section
/-!
DEFINITION. Segment access: GET, GETS, SET and SETS (spec/42_access.md R86 to R95). Each needs a bound cursor
(spec/60_exceptions.md R109, R110).
-/

namespace Sys2Proof.Machine

/-- GET (R86): answer VAL, no I/O. -/
def execGet (s : State) : Host.Outcome State Fault Refusal :=
  match bindingError s with
  | some e => raise e s
  | none => respond s.regs.val 0 0 s

/-- GETS (R87): answer VAL's low WIDTH bits as characters, most significant first. -/
def execGets (s : State) : Host.Outcome State Fault Refusal :=
  match bindingError s with
  | some e => raise e s
  | none => respond 0 (s.regs.width.setWidth 8) (valStr s.regs.val s.regs.w) s

/-- SET (R88, R89): reject a value of `2^w` or more, otherwise write the segment. -/
def execSet (val8 : Nat) (s : State) : Host.Outcome State Fault Refusal :=
  match bindingError s with
  | some e => raise e s
  | none =>
    if tooWide val8 s then raise .invalidSegmentValue s
    else writeSegment (BitVec.ofNat 8 val8) s

/-- SETS (R95): reject a string of another length or with another character, otherwise write its value as SET
does. -/
def execSets (len : Nat) (s : State) : Host.Outcome State Fault Refusal :=
  match bindingError s with
  | some e => raise e s
  | none =>
    match stringOperand len s with
    | none => raise .invalidSegmentValue s
    | some v =>
      if tooWide v s then raise .invalidSegmentValue s
      else writeSegment (BitVec.ofNat 8 v) s

end Sys2Proof.Machine
end

