-- ==== Sys2Proof/Machine/Dispatch.lean ====
section
/-!
DEFINITION. One arm per constructor of Instr (spec/30_encoding.md R65).
-/

namespace Sys2Proof.Machine

def exec (i : Instr) (s : State) : Host.Outcome State Fault Refusal :=
  match i with
  | .init wreq => Sys2Proof.Machine.execInit wreq s
  | .get => Sys2Proof.Machine.execGet s
  | .gets => Sys2Proof.Machine.execGets s
  | .set val8 => Sys2Proof.Machine.execSet val8 s
  | .sets len => Sys2Proof.Machine.execSets len s
  | .mvl => Sys2Proof.Machine.execMvl s
  | .mvr => Sys2Proof.Machine.execMvr s
  | .mask zl zc => Sys2Proof.Machine.execMask zl zc s

end Sys2Proof.Machine
end

