-- ==== Sys2Proof/Machine/Inputs.lean ====
section
/-!
DEFINITION. What one input from outside does: a command (spec/30_encoding.md R58, R66), a reset between commands
or during one (spec/70_reset_and_hazards.md R121, R122), and new stream contents (R126, R127).
-/

namespace Sys2Proof.Machine

/-- Accept a command: its inputs reach the core, and its accesses are counted from here (R58, R17). -/
def present (c : Command) (s : State) : State := { s with input := c.input, accesses := [] }

/-- Run a presented command as one atomic step (R58): the meaning of its word, or ILLEGAL_COMMAND before any
other check (R66, R110). -/
def runCommand (c : Command) (s : State) : Host.Outcome State Fault Refusal :=
  match decode c.word with
  | .ok i => exec i (present c s)
  | .error _ => raise .illegalCommand (present c s)

/-- The stream writes a command makes if nothing interrupts it, in order (R53): only SET and SETS write, and
only when they raise nothing. -/
def commandWrites (i : Instr) (s : State) : List (Nat × Byte) :=
  match bindingError s with
  | some _ => []
  | none =>
    match i with
    | .set val8 => if tooWide val8 s then [] else segmentWrites (BitVec.ofNat 8 val8) s
    | .sets len =>
      match stringOperand len s with
      | some v => if tooWide v s then [] else segmentWrites (BitVec.ofNat 8 v) s
      | none => []
    | .init _ => []
    | .get => []
    | .gets => []
    | .mvl => []
    | .mvr => []
    | .mask _ _ => []

/-- A reset while a command executes (R122): the first `k` of its stream writes have reached the stream, its
register writes are lost, there is no response. Only the writes are kept in the record of accesses (log 9). -/
def abortCommand (c : Command) (k : Nat) (s : State) : Host.Outcome State Fault Refusal :=
  match decode c.word with
  | .error _ => .next (resetEvent (present c s))
  | .ok i =>
    match memWrites ((commandWrites i (present c s)).take k) (present c s) with
    | .ok s' => .next { resetEvent s' with accesses := s'.accesses }
    | .error f => .fault f

/-- The stream gets other contents from outside: a move the host has only while the stream is not bound (R126,
R127, D25), and only for a stream of at most `STREAM_CAPACITY` bytes (R7). -/
def loadStream (bytes : List Byte) (s : State) : Host.Outcome State Fault Refusal :=
  if s.regs.bstate = .bound then .refused .streamHeldByCursor
  else if s.params.streamCapacity < bytes.length then .refused .streamTooLong
  else .next (s.setStream (Memory.ofBytes bytes))

/-- What one input does. -/
def takeInput (x : HostInput) (s : State) : Host.Outcome State Fault Refusal :=
  match x with
  | .command c => runCommand c s
  | .reset => .next (resetEvent s)
  | .resetDuring c k => abortCommand c k s
  | .loadStream bytes => loadStream bytes s

/-- Take the next input from the queue; with none the core is idle and keeps all of its state (R120). -/
def takeNext (s : State) : Host.Outcome State Fault Refusal :=
  match s.inbox with
  | [] => .next s
  | x :: rest => takeInput x { s with inbox := rest }

/-- The command word in the low 16 of `nbits` bits, presented as the next input, with the string operand and
the open answer that stand at the port. -/
def presentWord (nbits w : Nat) (s : State) : State :=
  { s with
    inbox := .command { word := BitVec.ofNat 16 (w % 2 ^ nbits), input := s.input } :: s.inbox }

end Sys2Proof.Machine
end

