-- ==== Sys2Proof/WellFormed.lean ====
section
/-!
DEFINITION. The operand ranges of spec/30_encoding.md R62: a well-formed command is one that a command word
can carry.
-/

namespace Sys2Proof

/-- Every operand lies in the range R62 gives it: `WREQ` and `ZC` 0..15, `VAL8` and `LEN` 0..255. -/
def Instr.wellFormed : Instr → Bool
  | .init wreq => decide (wreq ≤ 15)
  | .get => true
  | .gets => true
  | .set val8 => decide (val8 ≤ 255)
  | .sets len => decide (len ≤ 255)
  | .mvl => true
  | .mvr => true
  | .mask _ zc => decide (zc ≤ 15)

end Sys2Proof
end

