-- ==== Sys2Proof/Machine/HostSide.lean ====
section
/-!
DEFINITION. The host's side of the command port: how software arguments map onto the operand fields
(spec/30_encoding.md R64) and the assembler of BSC-CMD (R69). No step uses it.
-/

namespace Sys2Proof.Machine

/-! The mapping of software arguments (R64). -/

/-- The `WREQ` of a software `width` argument: unchanged in [1,8], 0 for any other integer (R64). -/
def wreqOfWidth (width : Int) : Nat := if 1 ≤ width ∧ width ≤ 8 then width.toNat else 0

/-- The `LEN` of a string: its length up to 255, and 255 for a longer one (R64). -/
def lenOfString (cs : List Byte) : Nat := min cs.length 255

/-- The string operand of a string: its first eight characters, the first one lowest, and 0x00 in the slots
after them (R62, R64, R69). -/
def busOfString (cs : List Byte) : StrBus :=
  cs.getD 7 0 ++ cs.getD 6 0 ++ cs.getD 5 0 ++ cs.getD 4 0 ++
    cs.getD 3 0 ++ cs.getD 2 0 ++ cs.getD 1 0 ++ cs.getD 0 0

/-! The assembler (R69): one command a line, and a semicolon starts a comment. What R69 leaves open of the spelling is the
model's choice, DESIGN CHOICE (log 17). -/

/-- The text without leading blanks. -/
def skipBlanks (cs : List Char) : List Char := cs.dropWhile fun c => c == ' ' || c == '\t'

/-- Nothing but blanks and a comment is left of the line. -/
def lineEnds (cs : List Char) : Bool :=
  match skipBlanks cs with
  | [] => true
  | c :: _ => c == ';'

/-- The value of a digit character, hexadecimal digits included. -/
def charDigit (c : Char) : Option Nat :=
  let n := c.toNat
  if 48 ≤ n ∧ n ≤ 57 then some (n - 48)
  else if 97 ≤ n ∧ n ≤ 102 then some (n - 87)
  else if 65 ≤ n ∧ n ≤ 70 then some (n - 55)
  else none

/-- Read digits of a base onto `acc`; the text after them is left. -/
def takeDigits (base : Nat) : Nat → List Char → Nat × List Char
  | acc, [] => (acc, [])
  | acc, c :: cs =>
    match charDigit c with
    | some d => if d < base then takeDigits base (acc * base + d) cs else (acc, c :: cs)
    | none => (acc, c :: cs)

/-- Read a number of a base: at least one digit. -/
def numberIn (base : Nat) (cs : List Char) : Option (Nat × List Char) :=
  if (takeDigits base 0 cs).2.length < cs.length then some (takeDigits base 0 cs) else none

/-- Read a number in decimal, `0x` hex or `0b` binary (R69). -/
def number : List Char → Option (Nat × List Char)
  | '0' :: 'x' :: cs => numberIn 16 cs
  | '0' :: 'b' :: cs => numberIn 2 cs
  | cs => numberIn 10 cs

/-- Read a quoted string of 8-bit characters. -/
def quoted : List Char → Option (List Byte × List Char)
  | [] => none
  | c :: cs =>
    if c = '"' then some ([], cs)
    else if c.toNat < 256 then
      match quoted cs with
      | some (bs, rest) => some (BitVec.ofNat 8 c.toNat :: bs, rest)
      | none => none
    else none

/-- The command word and string operand of a command with nothing left of its line; none where an operand is
out of the range R69 gives it. -/
def emit (i : Instr) (bus : StrBus) (rest : List Char) : Option (CmdWord × StrBus) :=
  if lineEnds rest && i.wellFormed then some (encode i, bus) else none

/-- A command with one number operand. DESIGN CHOICE (log 17): its string operand is 0, where R69 gives the word alone;
no command but SETS reads it (R67). -/
def emitNumber (f : Nat → Instr) : Option (Nat × List Char) → Option (CmdWord × StrBus)
  | some (n, rest) => emit (f n) 0 rest
  | none => none

/-- A command with one quoted operand: SETS (R69). -/
def emitQuoted : List Char → Option (CmdWord × StrBus)
  | [] => none
  | c :: cs =>
    if c = '"' then
      match quoted cs with
      | some (bs, rest) => emit (.sets (lenOfString bs)) (busOfString bs) rest
      | none => none
    else none

/-- The operands of MASK: a side, a comma and a number (R69). -/
def emitMask : List Char → Option (CmdWord × StrBus)
  | [] => none
  | side :: cs =>
    match skipBlanks cs with
    | ',' :: rest =>
      if side = 'L' then emitNumber (.mask true) (numberIn 10 (skipBlanks rest))
      else if side = 'R' then emitNumber (.mask false) (numberIn 10 (skipBlanks rest))
      else none
    | _ => none

/-- Assemble one line that holds a command (R69). DESIGN CHOICE (log 17): R69 only shows forms with a blank between the
mnemonic and its operand, and says nothing of one without; here none is needed where the text still falls apart by
itself, that is before a digit or a quote (`SET5`, `INIT3`, `SETS"101"`), and one is needed before the side of MASK, whose
letter would run on the mnemonic's. DESIGN CHOICE (log 17): the string operand of every command but SETS is 0; R58 gives
each command one, R69 says nothing of its value there, and only SETS reads it (R67). -/
def assembleCommand (line : List Char) : Option (CmdWord × StrBus) :=
  let word := line.takeWhile Char.isAlpha
  let rest := line.dropWhile Char.isAlpha
  let args := skipBlanks rest
  if word = ['I', 'N', 'I', 'T'] then emitNumber .init (numberIn 10 args)
  else if word = ['G', 'E', 'T'] then emit .get 0 rest
  else if word = ['G', 'E', 'T', 'S'] then emit .gets 0 rest
  else if word = ['S', 'E', 'T'] then emitNumber .set (number args)
  else if word = ['S', 'E', 'T', 'S'] then emitQuoted args
  else if word = ['M', 'V', 'L'] then emit .mvl 0 rest
  else if word = ['M', 'V', 'R'] then emit .mvr 0 rest
  else if word = ['M', 'A', 'S', 'K'] then emitMask args
  else none

/-- Assemble a program, line by line; none where a line is no command of R69. -/
def assemble : List (List Char) → Option (List (CmdWord × StrBus))
  | [] => some []
  | line :: lines =>
    if lineEnds line then assemble lines
    else
      match assembleCommand (skipBlanks line), assemble lines with
      | some c, some cs => some (c :: cs)
      | _, _ => none

end Sys2Proof.Machine
end

