-- ==== Sys2Proof/Safety.lean ====
section
/-!
DEFINITION. What counts as a good state and a good outcome: the invariants of spec/10_state.md R24 to R33 and of
spec/20_memory.md R37, R41.
-/

namespace Sys2Proof.Machine

/-- The invariants of a bound cursor (R27 to R31). -/
structure BoundInv (r : Regs) (m : Memory) : Prop where
  /-- The position is a multiple of the width (R27). -/
  aligned : r.p % r.w = 0
  /-- The position does not pass the stream's end (R28). -/
  inside : r.p ≤ 8 * m.len
  /-- EMPTY is 1 exactly when the stream has no byte (R29). -/
  empty_iff : r.empty = true ↔ m.len = 0
  /-- CURB is the stream byte at BOFF, or 0x00 where there is none (R30). -/
  curb_eq : r.curb = m.readOrZero r.boff
  /-- VAL is the segment at the position (R31). -/
  val_eq : r.val.toNat = m.seg r.p r.w

/-- The invariants of every state (R18, R24 to R26, R37, R41), with those of a bound cursor. -/
structure Inv (s : State) : Prop where
  /-- WIDTH lies in [1,8] (R25). -/
  width_pos : 1 ≤ s.regs.w
  width_le : s.regs.w ≤ 8
  /-- VAL has no bit at or above bit WIDTH (R26). -/
  val_lt : s.regs.val.toNat < 2 ^ s.regs.w
  /-- VAL and CURB hold 0x00 while EMPTY is 1 (R24). -/
  empty_zero : s.regs.empty = true → s.regs.val = 0 ∧ s.regs.curb = 0
  /-- The stream is in canonical form (R37) and within its capacity (R7, R41). -/
  stream_wf : s.stream.wf = true
  stream_fits : s.stream.len ≤ s.params.streamCapacity
  /-- The parameters satisfy R7's constraint. -/
  params_fit : s.params.fits
  /-- A cursor that is not bound holds the position, byte, value and flag of the reset state (R18, R84). -/
  unbound_idle : s.regs.bstate ≠ .bound →
    s.regs.boff = 0 ∧ s.regs.sidx = 0 ∧ s.regs.curb = 0 ∧ s.regs.val = 0 ∧ s.regs.empty = true
  bound_inv : s.regs.bstate = .bound → BoundInv s.regs s.stream

/-- An outcome that is no fault: the run is still inside what the spec gives a meaning to (R112). -/
def NoFault : Host.Outcome State Fault Refusal → Prop
  | .fault _ => False
  | .next _ => True
  | .refused _ => True

end Sys2Proof.Machine
end

