-- ==== Sys2Proof/Certificates/Slice0/Obligations.lean ====
section
/-!
DEFINITION. The statements for the provers. Each docstring names the rule of spec/ it formalises, or the log entry
whose choice it rests on. Next states are written out as updates of the state before, so each such equation is also the
instruction's frame; the fields `resp`, `accesses`, `input`, `inbox` and `draws` are the model's own way to hold the
response, the stream accesses, the step's inputs and the draws (logs 4 to 8).
-/

open Sys2Proof Sys2Proof.Machine

/-! Encoding. -/

/-- The words of the assembler examples of R69, and the operand-free commands, decode to what they stand for. -/
def Obligations.ExampleWordsDecode : Prop :=
  decode 0x1003 = .ok (.init 3) ∧ decode 0x2000 = .ok .get ∧ decode 0x3000 = .ok .gets ∧
    decode 0x4005 = .ok (.set 5) ∧ decode 0x5003 = .ok (.sets 3) ∧ decode 0x6000 = .ok .mvl ∧
    decode 0x7000 = .ok .mvr ∧ decode 0x8013 = .ok (.mask true 3) ∧ decode 0x8003 = .ok (.mask false 3)

/-- Decoding the word of a well-formed command gives the command back, with every operand at every value its field
admits (R61, R62, R65). -/
def Obligations.DecodeAfterEncode : Prop :=
  ∀ i : Instr, i.wellFormed = true → decode (encode i) = .ok i

/-- A word that decodes is the word of the command it decodes to, and that command is well-formed: no legal word has
a second spelling, and no bit of it is dropped (R61, R62, R66). -/
def Obligations.EncodeAfterDecode : Prop :=
  ∀ (w : CmdWord) (i : Instr), decode w = .ok i → i.wellFormed = true ∧ encode i = w

/-- R66. A word is illegal exactly when its opcode is 0x0 or 0x9..0xF or a reserved bit of its format is 1, and an
illegal command answers ILLEGAL_COMMAND, accesses nothing and changes no register and no stream byte, in every
binding state. -/
def Obligations.IllegalWordsAnswerIllegalCommand : Prop :=
  ∀ (s : State) (c : Command) (rest : List HostInput), s.inbox = .command c :: rest →
    ((∃ e, decode c.word = .error e) ↔
      (c.word.toNat / 4096 = 0 ∨ 9 ≤ c.word.toNat / 4096 ∨
        ((c.word.toNat / 4096 = 2 ∨ c.word.toNat / 4096 = 3 ∨ c.word.toNat / 4096 = 6 ∨
            c.word.toNat / 4096 = 7) ∧ c.word.toNat % 4096 ≠ 0) ∨
        (c.word.toNat / 4096 = 1 ∧ 16 ≤ c.word.toNat % 4096) ∨
        ((c.word.toNat / 4096 = 4 ∨ c.word.toNat / 4096 = 5) ∧ 256 ≤ c.word.toNat % 4096) ∨
        (c.word.toNat / 4096 = 8 ∧ 32 ≤ c.word.toNat % 4096))) ∧
    ((∃ e, decode c.word = .error e) →
      step s = .next { s with
        inbox := rest, input := c.input, accesses := [], resp := some (errResponse .illegalCommand) })

/-! The step and its inputs. -/

/-- A step that finds a command whose word decodes to `i` runs `i`, after taking the command from the queue, putting
its inputs at the port and starting a new record of accesses; and the word `withFetchWord` places is run next. -/
def Obligations.StepRunsTheDecodedCommand : Prop :=
  ∀ (s : State) (i : Instr),
    (∀ (c : Command) (rest : List HostInput), s.inbox = .command c :: rest → decode c.word = .ok i →
      step s = exec i { s with inbox := rest, input := c.input, accesses := [] }) ∧
    (∀ w : Nat, decode (BitVec.ofNat 16 (w % 2 ^ 16)) = .ok i →
      step (s.withFetchWord 16 w) = exec i { s with accesses := [] })

/-- R121. Reset sets every register to the value of R18, in `State.reset` and on a reset input in any state; it
produces no response and accesses no stream byte. -/
def Obligations.ResetSetsTheListedValues : Prop :=
  State.reset.regs =
      { bstate := .unbound, width := 8, boff := 0, sidx := 0, curb := 0x00, val := 0x00, empty := true } ∧
    State.reset.resp = none ∧ State.reset.accesses = [] ∧
    ∀ (s : State) (rest : List HostInput), s.inbox = .reset :: rest →
      step s = .next { s with
        inbox := rest
        regs := { bstate := .unbound, width := 8, boff := 0, sidx := 0, curb := 0x00, val := 0x00,
                  empty := true }
        resp := none
        accesses := [] }

/-- R122, with the writes of R53. A reset during any command, in a good state, leaves the registers reset, no response,
and the first `k` of the command's stream writes in the stream and in the record; every other field is as the input left
it. `ws` is the list of those writes: one byte for SET or SETS of an accepted value on an empty stream or within one
byte, two where the segment straddles, none for a rejected SET or SETS, for a cursor that is not bound and for the other
commands. A write that would pass the capacity is the fault of R41, and a command that runs to its end leaves the stream
with all of `ws`. A word that does not decode writes nothing. That the input names the command and `k`, and that the
record keeps the writes alone, is the model's choice (log 9). -/
def Obligations.ResetDuringCommandLeavesAPrefix : Prop :=
  ∀ (s : State) (c : Command) (k : Nat) (rest : List HostInput), Inv s → s.inbox = .resetDuring c k :: rest →
    ((∃ e, decode c.word = .error e) →
      step s = .next { s with
        inbox := rest, input := c.input, regs := Regs.reset, resp := none, accesses := [] }) ∧
    (∀ (i : Instr) (ws : List (Nat × Byte)), decode c.word = .ok i →
      ((∃ v : Nat, s.regs.bstate = .bound ∧ v < 2 ^ s.regs.w ∧
          (i = .set v ∨
            (i = .sets s.regs.w ∧ ∀ j : Nat, j < s.regs.w →
              strChar c.input.cstr j = (if v.testBit (s.regs.w - 1 - j) then 0x31#8 else 0x30#8))) ∧
          ws =
            (if s.regs.empty then [(0, BitVec.ofNat 8 (v * 2 ^ (8 - s.regs.w)))]
             else if s.regs.s + s.regs.w ≤ 8 then
               [(s.regs.boff, insertSingle s.regs.curb s.regs.s s.regs.w (BitVec.ofNat 8 v))]
             else
               [(s.regs.boff, insertHi s.regs.curb s.regs.s s.regs.w (BitVec.ofNat 8 v)),
                 (s.regs.boff + 1,
                   insertLo (s.stream.readOrZero (s.regs.boff + 1)) s.regs.s s.regs.w (BitVec.ofNat 8 v))])) ∨
        (ws = [] ∧
          (s.regs.bstate ≠ .bound ∨ (∃ v : Nat, i = .set v ∧ 2 ^ s.regs.w ≤ v) ∨
            (∃ n : Nat, i = .sets n ∧
              (n ≠ s.regs.w ∨
                ∃ j : Nat, j < s.regs.w ∧ strChar c.input.cstr j ≠ 0x30#8 ∧ strChar c.input.cstr j ≠ 0x31#8)) ∨
            ((∀ v : Nat, i ≠ .set v) ∧ ∀ n : Nat, i ≠ .sets n)))) →
      ((∀ x ∈ ws.take k, x.1 < s.params.streamCapacity) →
        step s = .next { s with
          inbox := rest, input := c.input, regs := Regs.reset, resp := none
          stream := (ws.take k).foldl (fun m x => m.put x.1 x.2) s.stream
          accesses := (ws.take k).map fun x => .write x.1 x.2 }) ∧
      ((∃ x ∈ ws.take k, s.params.streamCapacity ≤ x.1) → step s = .fault .streamFull) ∧
      (∀ u : State, exec i { s with inbox := rest, input := c.input, accesses := [] } = .next u →
        u.stream = ws.foldl (fun m x => m.put x.1 x.2) s.stream))

/-- The model's choice of log 10, after R126 and R127: new stream contents from outside replace the stream while it is
not bound and change nothing else; while it is bound, or beyond the capacity, the input is refused. -/
def Obligations.LoadStreamReplacesTheContents : Prop :=
  ∀ (s : State) (bytes : List Byte) (rest : List HostInput), s.inbox = .loadStream bytes :: rest →
    (s.regs.bstate = .bound → step s = .refused .streamHeldByCursor) ∧
    (s.regs.bstate ≠ .bound → s.params.streamCapacity < bytes.length → step s = .refused .streamTooLong) ∧
    (s.regs.bstate ≠ .bound → bytes.length ≤ s.params.streamCapacity →
      ∃ m : Memory, step s = .next { s with inbox := rest, stream := m } ∧
        m.len = bytes.length ∧ ∀ i : Nat, m.byteAt i = bytes[i]?)

/-- R120: with no input in the host's queue (log 5) the core is idle and keeps all of its state, however many steps
pass. -/
def Obligations.IdleCoreKeepsItsState : Prop :=
  ∀ s : State, s.inbox = [] → step s = .next s ∧ ∀ n : Nat, Sys2Proof.core.run n s = .next s

/-- Every step keeps the parameters (R7) and takes exactly one input from the host's queue, if one is there (log 5). -/
def Obligations.StepKeepsParametersAndTakesOneInput : Prop :=
  ∀ s t : State, step s = .next t → t.params = s.params ∧ t.inbox = s.inbox.tail

/-- The codes and fields of R68 and R108. -/
def Obligations.ResponsesCarryTheirCodes : Prop :=
  (∀ (d : Byte) (n : BitVec 8) (str : StrBus),
    okResponse d n str = { ok := true, err := 0, rdata := d, rlen := n, rstr := str }) ∧
  errResponse .invalidSegmentValue = { ok := false, err := 1, rdata := 0, rlen := 0, rstr := 0 } ∧
  errResponse .boundaryViolation = { ok := false, err := 2, rdata := 0, rlen := 0, rstr := 0 } ∧
  errResponse .streamOpenError = { ok := false, err := 3, rdata := 0, rlen := 0, rstr := 0 } ∧
  errResponse .notBound = { ok := false, err := 4, rdata := 0, rlen := 0, rstr := 0 } ∧
  errResponse .illegalCommand = { ok := false, err := 5, rdata := 0, rlen := 0, rstr := 0 }

/-! INIT. -/

/-- R83 with the width of R81. A successful open binds the cursor to segment 0, with an empty stream's zero value or
with byte 0 and its top bits; nothing else changes but the record of accesses and the response. -/
def Obligations.InitBindsTheStream : Prop :=
  ∀ (wreq w : Nat) (s : State), s.input.openOk = true → s.stream.wf = true →
    w = (if 1 ≤ wreq ∧ wreq ≤ 8 then wreq else 8) →
    (s.stream.len = 0 →
      exec (.init wreq) s = .next { s with
        regs := { bstate := .bound, width := BitVec.ofNat 4 w, boff := 0, sidx := 0, curb := 0x00,
                  val := 0x00, empty := true }
        accesses := s.accesses ++ [.openStream]
        resp := some (okResponse 0 0 0) }) ∧
    (0 < s.stream.len →
      exec (.init wreq) s = .next { s with
        regs := { bstate := .bound, width := BitVec.ofNat 4 w, boff := 0, sidx := 0,
                  curb := s.stream.readOrZero 0
                  val := (s.stream.readOrZero 0 >>> (8 - w)) &&& BitVec.ofNat 8 (ones w)
                  empty := false }
        accesses := s.accesses ++ [.openStream, .read 0]
        resp := some (okResponse 0 0 0) })

/-- R84. A failed open leaves a FAILED cursor with the clamped width and answers STREAM_OPEN_ERROR. -/
def Obligations.InitAnswersFailedOpen : Prop :=
  ∀ (wreq : Nat) (s : State), s.input.openOk = false →
    exec (.init wreq) s = .next { s with
      regs := { bstate := .failed
                width := BitVec.ofNat 4 (if 1 ≤ wreq ∧ wreq ≤ 8 then wreq else 8)
                boff := 0, sidx := 0, curb := 0x00, val := 0x00, empty := true }
      accesses := s.accesses ++ [.openStream]
      resp := some (errResponse .streamOpenError) }

/-- R85: INIT does not depend on the previous cursor; whatever the registers were, it ends the same. -/
def Obligations.InitIgnoresThePreviousCursor : Prop :=
  ∀ (wreq : Nat) (s : State) (r : Regs), exec (.init wreq) (s.setRegs r) = exec (.init wreq) s

/-! GET, GETS and MASK. -/

/-- R86. GET answers VAL and changes nothing but the response; the answer has no bit at or above WIDTH, and is 0x00
while EMPTY is 1. -/
def Obligations.GetAnswersVal : Prop :=
  ∀ s : State, s.regs.bstate = .bound →
    exec .get s = .next { s with resp := some (okResponse s.regs.val 0 0) } ∧
    (Inv s → s.regs.val.toNat < 2 ^ s.regs.w ∧ (s.regs.empty = true → s.regs.val = 0x00))

/-- R87. GETS answers WIDTH characters '0' or '1', the most significant bit of VAL first, and 0x00 in the slots after
them, and changes nothing but the response; while EMPTY is 1 every character is '0'. -/
def Obligations.GetsAnswersTheDigitsOfVal : Prop :=
  ∀ s : State, s.regs.bstate = .bound → 1 ≤ s.regs.w → s.regs.w ≤ 8 →
    ∃ str : StrBus,
      exec .gets s = .next { s with resp := some (okResponse 0 (BitVec.ofNat 8 s.regs.w) str) } ∧
      (∀ i : Nat, i < 8 →
        str.extractLsb' (8 * i) 8 =
          (if i < s.regs.w then (if s.regs.val.toNat.testBit (s.regs.w - 1 - i) then 0x31#8 else 0x30#8)
           else 0x00#8)) ∧
      (Inv s → s.regs.empty = true → ∀ i : Nat, i < s.regs.w → str.extractLsb' (8 * i) 8 = 0x30#8)

/-- R70 and R72 for counts up to 8: in every binding state MASK answers the byte with ZC zeros on the side ZL names and
ones elsewhere, and changes nothing but the response. -/
def Obligations.MaskAnswersClusteredZeros : Prop :=
  ∀ (zl : Bool) (zc : Nat) (s : State), zc ≤ 8 →
    ∃ m : Byte,
      exec (.mask zl zc) s = .next { s with resp := some (okResponse m 0 0) } ∧
      ∀ j : Nat, j < 8 → m.getLsbD j = (if zl then decide (j < 8 - zc) else decide (zc ≤ j))

/-- R70 and R72 for counts above 8: in every binding state MASK succeeds with some byte and changes nothing but the
response and the model's own count of draws. That the byte is `Config.maskInvalid` at that count is the model's choice
(log 4); whatever that byte is, the statement says nothing more of it. -/
def Obligations.MaskDrawsAByteBeyondEight : Prop :=
  ∀ (zl : Bool) (zc : Nat) (s : State), 8 < zc →
    exec (.mask zl zc) s = .next { s with
      resp := some (okResponse (Config.maskInvalid s.draws zl zc) 0 0), draws := s.draws + 1 }

/-- R71, the facts about `Mask` for counts up to 8. -/
def Obligations.MaskGeneratorFacts : Prop :=
  ∀ n : Nat, n ≤ 8 →
    (∀ zl : Bool, maskGen zl 0 = 0xFF ∧ maskGen zl 8 = 0x00) ∧
    maskGen true n = BitVec.ofNat 8 (ones (8 - n)) ∧
    maskGen false n = 0xFF - BitVec.ofNat 8 (ones n) ∧
    maskGen true n = ~~~ maskGen false (8 - n) ∧
    (∀ zl : Bool, ((List.range 8).filter fun j => !(maskGen zl n).getLsbD j).length = n)

/-! SET and SETS. -/

/-- R88. A value of `2^w` or more is rejected with INVALID_SEGMENT_VALUE, before any access or write. -/
def Obligations.SetRejectsAWideValue : Prop :=
  ∀ (v : Nat) (s : State), s.regs.bstate = .bound → 2 ^ s.regs.w ≤ v →
    exec (.set v) s = .next { s with resp := some (errResponse .invalidSegmentValue) }

/-- R90. SET on an empty stream writes the left-justified value as byte 0, the same byte as the single-byte case would
at a phantom position, and keeps it in CURB. -/
def Obligations.SetOnAnEmptyStream : Prop :=
  ∀ (v : Nat) (s : State), Inv s → s.regs.bstate = .bound → s.regs.empty = true → v < 2 ^ s.regs.w →
    0 < s.params.streamCapacity →
    exec (.set v) s = .next { s with
      regs := { s.regs with
        empty := false, curb := BitVec.ofNat 8 (v * 2 ^ (8 - s.regs.w)), val := BitVec.ofNat 8 v }
      stream := [(0, BitVec.ofNat 8 (v * 2 ^ (8 - s.regs.w)))]
      accesses := s.accesses ++ [.write 0 (BitVec.ofNat 8 (v * 2 ^ (8 - s.regs.w)))]
      resp := some (okResponse 0 0 0) } ∧
    s.regs.boff = 0 ∧ s.regs.sidx = 0 ∧
    insertSingle 0x00 0 s.regs.w (BitVec.ofNat 8 v) = BitVec.ofNat 8 (v * 2 ^ (8 - s.regs.w))

/-- R91. SET of a segment that lies in byte BOFF writes one byte: the segment's bits are the value's, most significant
first, every other bit is CURB's. Bit `j` counts from the most significant (R44). -/
def Obligations.SetWithinOneByte : Prop :=
  ∀ (v : Nat) (s : State), Inv s → s.regs.bstate = .bound → s.regs.empty = false →
    s.regs.s + s.regs.w ≤ 8 → v < 2 ^ s.regs.w → s.regs.boff < s.params.streamCapacity →
    ∃ b : Byte,
      exec (.set v) s = .next { s with
        regs := { s.regs with curb := b, val := BitVec.ofNat 8 v }
        stream := s.stream.put s.regs.boff b
        accesses := s.accesses ++ [.write s.regs.boff b]
        resp := some (okResponse 0 0 0) } ∧
      ∀ j : Nat, j < 8 →
        b.getLsbD (7 - j) =
          (if s.regs.s ≤ j ∧ j < s.regs.s + s.regs.w then v.testBit (s.regs.w - 1 - (j - s.regs.s))
           else s.regs.curb.getLsbD (7 - j))

/-- R92. SET of a straddling segment reads byte BOFF+1 and writes both bytes: the high part of the value in the low
bits of byte BOFF, the low part in the high bits of byte BOFF+1, every other bit as it was, 0 where byte BOFF+1 did
not exist. -/
def Obligations.SetAcrossTwoBytes : Prop :=
  ∀ (v : Nat) (s : State), Inv s → s.regs.bstate = .bound → s.regs.empty = false →
    8 < s.regs.s + s.regs.w → v < 2 ^ s.regs.w → s.regs.boff + 1 < s.params.streamCapacity →
    ∃ hi lo : Byte,
      exec (.set v) s = .next { s with
        regs := { s.regs with curb := hi, val := BitVec.ofNat 8 v }
        stream := (s.stream.put s.regs.boff hi).put (s.regs.boff + 1) lo
        accesses := s.accesses ++
          [.read (s.regs.boff + 1), .write s.regs.boff hi, .write (s.regs.boff + 1) lo]
        resp := some (okResponse 0 0 0) } ∧
      (∀ j : Nat, j < 8 →
        hi.getLsbD (7 - j) =
          (if s.regs.s ≤ j then v.testBit (s.regs.w - 1 - (j - s.regs.s))
           else s.regs.curb.getLsbD (7 - j))) ∧
      (∀ j : Nat, j < 8 →
        lo.getLsbD (7 - j) =
          (if j < s.regs.s + s.regs.w - 8 then v.testBit (s.regs.w - 1 - (8 - s.regs.s + j))
           else (s.stream.readOrZero (s.regs.boff + 1)).getLsbD (7 - j)))

/-- R41 and R112: from a good state a segment write is the fault StreamFull exactly when the byte that holds the
segment's last bit lies at or past the capacity. -/
def Obligations.SetFaultsExactlyBeyondTheCapacity : Prop :=
  ∀ (v : Nat) (s : State), Inv s → s.regs.bstate = .bound → v < 2 ^ s.regs.w →
    (exec (.set v) s = .fault .streamFull ↔
      s.params.streamCapacity ≤ endbyte s.regs.boff s.regs.s s.regs.w)

/-- R95. SETS of a string of WIDTH digits does what SET does with the number they spell, the first digit most
significant; any other string is rejected with INVALID_SEGMENT_VALUE before any access or write. -/
def Obligations.SetsDelegatesToSet : Prop :=
  ∀ s : State, s.regs.bstate = .bound →
    (∀ v : Nat, v < 2 ^ s.regs.w →
      (∀ k : Nat, k < s.regs.w →
        strChar s.input.cstr k = (if v.testBit (s.regs.w - 1 - k) then 0x31#8 else 0x30#8)) →
      exec (.sets s.regs.w) s = exec (.set v) s) ∧
    (∀ len : Nat,
      (len ≠ s.regs.w ∨
        ∃ k : Nat, k < s.regs.w ∧ strChar s.input.cstr k ≠ 0x30#8 ∧ strChar s.input.cstr k ≠ 0x31#8) →
      exec (.sets len) s = .next { s with resp := some (errResponse .invalidSegmentValue) })

/-- From a good state, SET of a value and SETS of its digits complete, and afterwards the segment's stream bits are the
value and every other stream bit is what it was; the position stays (R89, R93 to R95, R45). -/
def Obligations.SegmentWriteIsExact : Prop :=
  ∀ (i : Instr) (v : Nat) (s : State), Inv s → s.regs.bstate = .bound → v < 2 ^ s.regs.w →
    endbyte s.regs.boff s.regs.s s.regs.w < s.params.streamCapacity →
    (i = .set v ∨
      (i = .sets s.regs.w ∧ ∀ k : Nat, k < s.regs.w →
        strChar s.input.cstr k = (if v.testBit (s.regs.w - 1 - k) then 0x31#8 else 0x30#8))) →
    ∃ t : State, exec i s = .next t ∧
      t.stream.seg s.regs.p s.regs.w = v ∧
      (∀ q : Nat, q < s.regs.p ∨ s.regs.p + s.regs.w ≤ q → t.stream.sbit q = s.stream.sbit q) ∧
      t.stream.len = max s.stream.len (endbyte s.regs.boff s.regs.s s.regs.w + 1) ∧
      t.regs = { s.regs with
        empty := false, curb := t.stream.readOrZero s.regs.boff, val := BitVec.ofNat 8 v } ∧
      t.resp = some (okResponse 0 0 0) ∧ t.params = s.params ∧ t.input = s.input ∧ t.inbox = s.inbox ∧
      t.draws = s.draws

/-- The frame of SET and SETS in every state (R53, R89): every byte at an index they do not store to reads as before,
and BSTATE, WIDTH, BOFF and SIDX, the parameters, the inputs and the draws stay. -/
def Obligations.SegmentWriteFrame : Prop :=
  ∀ (i : Instr) (s t : State), ((∃ v, i = .set v) ∨ (∃ n, i = .sets n)) → exec i s = .next t →
    (∀ a : Nat,
      a ∉ (if s.regs.empty then [0]
           else if s.regs.s + s.regs.w ≤ 8 then [s.regs.boff] else [s.regs.boff, s.regs.boff + 1]) →
      t.stream.byteAt a = s.stream.byteAt a) ∧
    t.regs.bstate = s.regs.bstate ∧ t.regs.width = s.regs.width ∧ t.regs.boff = s.regs.boff ∧
    t.regs.sidx = s.regs.sidx ∧ t.params = s.params ∧ t.input = s.input ∧ t.inbox = s.inbox ∧
    t.draws = s.draws

/-! MVL and MVR. -/

/-- R96, with the new segment of R97 and R98. From a good state MVL answers BOUNDARY_VIOLATION and changes nothing else
on an empty stream and at its start; otherwise it succeeds, and the cursor holds the segment `w` bits to the left. -/
def Obligations.MvlMovesLeftOrFails : Prop :=
  ∀ s : State, Inv s → s.regs.bstate = .bound →
    ((s.regs.empty = true ∨ (s.regs.boff = 0 ∧ s.regs.sidx = 0)) →
      exec .mvl s = .next { s with resp := some (errResponse .boundaryViolation) }) ∧
    (s.regs.empty = false → ¬ (s.regs.boff = 0 ∧ s.regs.sidx = 0) →
      s.regs.w ≤ s.regs.p ∧
      exec .mvl s = .next { s with
        regs := { s.regs with
          boff := (s.regs.p - s.regs.w) / 8
          sidx := BitVec.ofNat 3 ((s.regs.p - s.regs.w) % 8)
          curb := s.stream.readOrZero ((s.regs.p - s.regs.w) / 8)
          val := BitVec.ofNat 8 (s.stream.seg (s.regs.p - s.regs.w) s.regs.w) }
        accesses := s.accesses ++ (if s.regs.w ≤ s.regs.s then [] else [.read (s.regs.boff - 1)])
        resp := some (okResponse 0 0 0) })

/-- R99, with the new segment of R100 and R103. From a good state MVR succeeds exactly when EMPTY is 0 and the segment
lies wholly within bytes that exist, and the cursor then holds the segment `w` bits to the right; otherwise it answers
BOUNDARY_VIOLATION and changes no register and no stream byte. -/
def Obligations.MvrMovesRightOrFails : Prop :=
  ∀ s : State, Inv s → s.regs.bstate = .bound →
    (s.regs.empty = true →
      exec .mvr s = .next { s with resp := some (errResponse .boundaryViolation) }) ∧
    (s.regs.empty = false → 8 * s.stream.len < s.regs.p + s.regs.w →
      exec .mvr s = .next { s with
        accesses := s.accesses ++ [.read ((s.regs.p + s.regs.w - 1) / 8)]
        resp := some (errResponse .boundaryViolation) }) ∧
    (s.regs.empty = false → s.regs.p + s.regs.w ≤ 8 * s.stream.len →
      exec .mvr s = .next { s with
        regs := { s.regs with
          boff := (s.regs.p + s.regs.w) / 8
          sidx := BitVec.ofNat 3 ((s.regs.p + s.regs.w) % 8)
          curb := s.stream.readOrZero ((s.regs.p + s.regs.w) / 8)
          val := BitVec.ofNat 8 (s.stream.seg (s.regs.p + s.regs.w) s.regs.w) }
        accesses := s.accesses ++ [.read ((s.regs.p + s.regs.w - 1) / 8)] ++
          (if (s.regs.p + s.regs.w) / 8 = s.regs.boff then [] else [.read ((s.regs.p + s.regs.w) / 8)]) ++
          (if (s.regs.p + s.regs.w) % 8 + s.regs.w ≤ 8 then []
           else [.read ((s.regs.p + s.regs.w) / 8 + 1)])
        resp := some (okResponse 0 0 0) })

/-- R101, the four success cases of MVR by `t = s + w`, in every bound state with a legal width whose probe finds a
byte. -/
def Obligations.MvrFourCases : Prop :=
  ∀ (s : State) (b : Byte), s.regs.bstate = .bound → s.regs.empty = false → 1 ≤ s.regs.w → s.regs.w ≤ 8 →
    s.stream.byteAt (endbyte s.regs.boff s.regs.s s.regs.w) = some b →
    ∃ u : State, exec .mvr s = .next u ∧ u.resp = some (okResponse 0 0 0) ∧ u.stream = s.stream ∧
      (s.regs.s + s.regs.w + s.regs.w ≤ 8 →
        u.regs = { s.regs with
          sidx := BitVec.ofNat 3 (s.regs.s + s.regs.w)
          val := extract s.regs.curb 0 (s.regs.s + s.regs.w) s.regs.w }) ∧
      (s.regs.s + s.regs.w < 8 → 8 < s.regs.s + s.regs.w + s.regs.w →
        u.regs = { s.regs with
          sidx := BitVec.ofNat 3 (s.regs.s + s.regs.w)
          val := extract s.regs.curb (s.stream.readOrZero (s.regs.boff + 1)) (s.regs.s + s.regs.w)
            s.regs.w }) ∧
      (8 ≤ s.regs.s + s.regs.w → s.regs.s + s.regs.w - 8 + s.regs.w ≤ 8 →
        u.regs = { s.regs with
          boff := s.regs.boff + 1
          sidx := BitVec.ofNat 3 (s.regs.s + s.regs.w - 8)
          curb := s.stream.readOrZero (s.regs.boff + 1)
          val := extract (s.stream.readOrZero (s.regs.boff + 1)) 0 (s.regs.s + s.regs.w - 8) s.regs.w }) ∧
      (8 ≤ s.regs.s + s.regs.w → 8 < s.regs.s + s.regs.w - 8 + s.regs.w →
        u.regs = { s.regs with
          boff := s.regs.boff + 1
          sidx := BitVec.ofNat 3 (s.regs.s + s.regs.w - 8)
          curb := s.stream.readOrZero (s.regs.boff + 1)
          val := extract (s.stream.readOrZero (s.regs.boff + 1)) (s.stream.readOrZero (s.regs.boff + 2))
            (s.regs.s + s.regs.w - 8) s.regs.w })

/-- R33 and R112, with the branches of R97. MVL faults in two kinds of state and in no other, always with
InvariantBroken: in a bound, non-empty cursor with SIDX < WIDTH, where BOFF is 0 with SIDX above 0, and where the byte
before BOFF is missing. A good state is neither, so there MVL never faults. -/
def Obligations.MvlFaultsOnlyInExcludedStates : Prop :=
  ∀ s : State,
    (∀ f : Fault, exec .mvl s = .fault f ↔
      f = .invariantBroken ∧ s.regs.bstate = .bound ∧ s.regs.empty = false ∧ s.regs.s < s.regs.w ∧
        ((s.regs.boff = 0 ∧ 0 < s.regs.s) ∨
          (0 < s.regs.boff ∧ s.stream.byteAt (s.regs.boff - 1) = none))) ∧
    (Inv s → ∀ f : Fault, exec .mvl s ≠ .fault f)

/-! Errors and responses. -/

/-- R109. While BSTATE is not BOUND, GET, GETS, SET, SETS, MVL and MVR answer NOT_BOUND in UNBOUND and STREAM_OPEN_ERROR
in FAILED, with any operand, and change nothing else; INIT and MASK run in every binding state. -/
def Obligations.UnusableCursorRefuses : Prop :=
  ∀ s : State,
    (∀ i : Instr, (i = .get ∨ i = .gets ∨ (∃ v, i = .set v) ∨ (∃ n, i = .sets n) ∨ i = .mvl ∨ i = .mvr) →
      (s.regs.bstate = .unbound →
        exec i s = .next { s with resp := some (errResponse .notBound) }) ∧
      (s.regs.bstate = .failed →
        exec i s = .next { s with resp := some (errResponse .streamOpenError) })) ∧
    (∀ (zl : Bool) (zc : Nat), ∃ (t : State) (r : Response),
      exec (.mask zl zc) s = .next t ∧ t.resp = some r ∧ r.ok = true) ∧
    (∀ wreq : Nat, s.input.openOk = true → s.stream.wf = true →
      ∃ t : State, exec (.init wreq) s = .next t ∧ t.regs.bstate = .bound)

/-- R107 and R111: after an error response of any command but INIT every register and the stream are as before, and the
response carries a code of R108 and no data; INIT's only error is STREAM_OPEN_ERROR, and it leaves the stream. -/
def Obligations.ErrorsChangeNothing : Prop :=
  ∀ (i : Instr) (s t : State) (r : Response), exec i s = .next t → t.resp = some r → r.ok = false →
    ((∀ w, i ≠ .init w) → t.regs = s.regs) ∧
    ((∃ w, i = .init w) → r.err = 3) ∧
    t.stream = s.stream ∧ t.draws = s.draws ∧
    1 ≤ r.err.toNat ∧ r.err.toNat ≤ 4 ∧ r.rdata = 0 ∧ r.rlen = 0 ∧ r.rstr = 0

/-- R68 and R108: a command that is answered (that exec answers a next state for is the premise here; the completion
statements say when it does) leaves one response at the port; its error code is 0 exactly when it succeeded and
never 6 or 7; only GET and MASK answer a byte, and only GETS a string. -/
def Obligations.AnsweredCommandLeavesOneResponse : Prop :=
  ∀ (i : Instr) (s t : State), exec i s = .next t →
    ∃ r : Response, t.resp = some r ∧ (r.ok = true ↔ r.err = 0) ∧ r.err.toNat ≤ 5 ∧
      (r.rdata ≠ 0 → i = .get ∨ ∃ zl zc, i = .mask zl zc) ∧
      ((r.rlen ≠ 0 ∨ r.rstr ≠ 0) → i = .gets)

/-! Invariants and whole-machine rules. -/

/-- The invariants hold after reset (R18, R25, R26); the stream that reset leaves is the choice of log 1. -/
def Obligations.ResetHoldsTheInvariant : Prop := Inv State.reset

/-- Every step keeps the invariants R24 to R31, R37 and R41, from every state that has them and for every input. The form
of the inputs is the model's choice (logs 5, 9 and 10). -/
def Obligations.StepKeepsTheInvariant : Prop :=
  ∀ s t : State, Inv s → step s = .next t → Inv t

/-- From a good state the only fault is StreamFull, only on a SET or SETS, and only when the stream is as long as its
capacity: InvariantBroken is unreachable (R33, R112, R41). That commands come from the host's queue is the model's choice
(log 5), and so is the input that resets during a SET or SETS, whose prefix of writes may meet the capacity (log 9). -/
def Obligations.FaultsOnlyWhenTheStreamIsFull : Prop :=
  ∀ (s : State) (f : Fault), Inv s → step s = .fault f →
    f = .streamFull ∧ s.stream.len = s.params.streamCapacity ∧ s.regs.bstate = .bound ∧
    ∃ (c : Command) (rest : List HostInput) (i : Instr),
      (s.inbox = .command c :: rest ∨ ∃ k, s.inbox = .resetDuring c k :: rest) ∧
      decode c.word = .ok i ∧ ((∃ v, i = .set v) ∨ ∃ n, i = .sets n)

/-- The bounds that the invariants give a bound cursor: BOFF never passes L, BOFF = L only at bit 0 (R28), a segment
spans at most two bytes (R32), and BOFF fits its OFFSET_W bits, as does the next byte offset (R7, log 2). -/
def Obligations.InvariantBoundsThePosition : Prop :=
  ∀ s : State, Inv s →
    s.regs.s + s.regs.w ≤ 15 ∧ s.regs.boff + 1 < 2 ^ s.params.offsetW ∧
    (s.regs.bstate = .bound →
      s.regs.boff ≤ s.stream.len ∧ (s.regs.boff = s.stream.len → s.regs.sidx = 0) ∧
      (s.regs.empty = false → 0 < s.stream.len))

/-- R105. A successful MVR followed by MVL, and a successful MVL followed by MVR, restore every register and leave the
stream. -/
def Obligations.NavigationRoundTrip : Prop :=
  ∀ (i j : Instr) (s t : State), Inv s → s.regs.bstate = .bound →
    ((i = .mvr ∧ j = .mvl) ∨ (i = .mvl ∧ j = .mvr)) →
    exec i s = .next t → t.resp = some (okResponse 0 0 0) →
    ∃ u : State, exec j t = .next u ∧ u.resp = some (okResponse 0 0 0) ∧ u.regs = s.regs ∧
      u.stream = s.stream

/-- R104. From segment 0 of a stream of L bytes, MVR succeeds exactly `k = 8*L / w` times in a row, the n-th success
landing on segment n, and the next MVR fails at segment k, the first that is not wholly inside the stream. The run of
commands stands in the host's queue, which is the model's choice (log 5). -/
def Obligations.RepeatedMvrSucceedsFloorTimes : Prop :=
  ∀ (s : State) (inp : StepInput), Inv s → s.regs.bstate = .bound → s.regs.p = 0 →
    s.inbox = List.replicate (8 * s.stream.len / s.regs.w + 1) (.command { word := 0x7000, input := inp }) →
    (∀ n : Nat, n ≤ 8 * s.stream.len / s.regs.w →
      ∃ t : State, Sys2Proof.core.run n s = .next t ∧ t.regs.p = n * s.regs.w ∧ t.stream = s.stream ∧
        (0 < n → t.resp = some (okResponse 0 0 0))) ∧
    8 * s.stream.len < (8 * s.stream.len / s.regs.w + 1) * s.regs.w ∧
    ∃ t : State, Sys2Proof.core.run (8 * s.stream.len / s.regs.w + 1) s = .next t ∧
      t.regs.p = 8 * s.stream.len / s.regs.w * s.regs.w ∧
      t.resp = some (errResponse .boundaryViolation)

/-- R42: while the stream is bound no step shortens it, whatever input the step takes; the form of the inputs is the
model's choice (logs 5, 9 and 10). -/
def Obligations.BoundStreamNeverShrinks : Prop :=
  ∀ s t : State, s.regs.bstate = .bound → step s = .next t → s.stream.len ≤ t.stream.len

/-- R38 and R53: a command other than SET and SETS leaves every byte of the stream and issues no write. -/
def Obligations.OnlySegmentWritesTouchTheStream : Prop :=
  ∀ (i : Instr) (s t : State), (∀ v, i ≠ .set v) → (∀ n, i ≠ .sets n) → exec i s = .next t →
    t.stream = s.stream ∧
    ∃ l : List Access, t.accesses = s.accesses ++ l ∧ ∀ (a : Nat) (b : Byte), Access.write a b ∉ l

/-- Bounds on the number of stream accesses of a command, from R53 and R49: GET, GETS and MASK access nothing, only INIT
opens the stream, MVL makes at most one access, and no command makes more than three. Which accesses INIT, SET, MVL and
MVR make is stated with each of them (InitBindsTheStream, SetOnAnEmptyStream, SetWithinOneByte, SetAcrossTwoBytes,
MvlMovesLeftOrFails, MvrMovesRightOrFails), and SETS is tied to SET (SetsDelegatesToSet). -/
def Obligations.AccessesOfACommandAreBounded : Prop :=
  ∀ (i : Instr) (s t : State), exec i s = .next t →
    ∃ l : List Access, t.accesses = s.accesses ++ l ∧ l.length ≤ 3 ∧
      (i = .get ∨ i = .gets ∨ (∃ zl zc, i = .mask zl zc) → l = []) ∧
      (i = .mvl → l.length ≤ 1) ∧
      (Access.openStream ∈ l → ∃ w, i = .init w)

/-- R47. The stream segment at any position is what the extractor takes from the byte it starts in and the next one; a
segment that lies in one byte does not depend on the next. -/
def Obligations.SegmentIsExtracted : Prop :=
  ∀ (m : Memory) (p w : Nat), 1 ≤ w → w ≤ 8 →
    m.seg p w = (extract (m.readOrZero (p / 8)) (m.readOrZero (p / 8 + 1)) (p % 8) w).toNat ∧
    (p % 8 + w ≤ 8 → m.seg p w = (extract (m.readOrZero (p / 8)) 0 (p % 8) w).toNat)

/-- R79. What is inserted is extracted again, and every bit outside the segment stays: in one byte, and across two.
Bit `j` counts from the most significant. -/
def Obligations.InserterLaws : Prop :=
  ∀ (s w : Nat) (v b n : Byte), s ≤ 7 → 1 ≤ w → w ≤ 8 → v.toNat < 2 ^ w →
    (s + w ≤ 8 →
      extract (insertSingle b s w v) 0 s w = v ∧
      ∀ j : Nat, j < 8 → (j < s ∨ s + w ≤ j) → (insertSingle b s w v).getLsbD (7 - j) = b.getLsbD (7 - j)) ∧
    (8 < s + w →
      extract (insertHi b s w v) (insertLo n s w v) s w = v ∧
      (∀ j : Nat, j < s → (insertHi b s w v).getLsbD (7 - j) = b.getLsbD (7 - j)) ∧
      (∀ j : Nat, j < 8 → s + w - 8 ≤ j → (insertLo n s w v).getLsbD (7 - j) = n.getLsbD (7 - j)))

/-- R74: the byte of the segment's last bit is BOFF or BOFF+1 as the segment is single or straddles, and the next and
previous positions are one width away. -/
def Obligations.PositionDecoderSteps : Prop :=
  ∀ b s w : Nat, s ≤ 7 → 1 ≤ w → w ≤ 8 →
    endbyte b s w = (if single s w then b else b + 1) ∧
    pos (nextPos b s w).1 (nextPos b s w).2 = pos b s + w ∧
    (w ≤ pos b s → pos (prevPos b s w).1 (prevPos b s w).2 + w = pos b s)

/-- From a good state the string GETS answers is accepted by SETS and leaves VAL; where the segment lies wholly inside
the stream it leaves every register and the stream (R87, R95; the law E3 of spec/95_test_vectors.md). -/
def Obligations.GetsThenSetsKeepsTheSegment : Prop :=
  ∀ s : State, Inv s → s.regs.bstate = .bound →
    endbyte s.regs.boff s.regs.s s.regs.w < s.params.streamCapacity →
    ∃ (t u : State) (r : Response), exec .gets s = .next t ∧ t.resp = some r ∧
      exec (.sets r.rlen.toNat) { t with input := { t.input with cstr := r.rstr } } = .next u ∧
      u.resp = some (okResponse 0 0 0) ∧ u.regs.val = s.regs.val ∧
      (s.regs.p + s.regs.w ≤ 8 * s.stream.len → u.regs = s.regs ∧ u.stream = s.stream)

/-- R18, the column "written by": a register that a command changes is one that the table lets it write; SET and SETS
only clear EMPTY. -/
def Obligations.RegistersChangeOnlyByTheirCommands : Prop :=
  ∀ (i : Instr) (s t : State), exec i s = .next t → (∀ w, i ≠ .init w) →
    t.regs.bstate = s.regs.bstate ∧ t.regs.width = s.regs.width ∧
    (i ≠ .mvl → i ≠ .mvr → t.regs.boff = s.regs.boff ∧ t.regs.sidx = s.regs.sidx) ∧
    ((i = .get ∨ i = .gets ∨ ∃ zl zc, i = .mask zl zc) → t.regs = s.regs) ∧
    (t.regs.empty ≠ s.regs.empty → t.regs.empty = false ∧ ((∃ v, i = .set v) ∨ ∃ n, i = .sets n))

/-- R67: a command other than SETS does not depend on the string operand, and SETS does not depend on the slots from
LEN on. -/
def Obligations.StringOperandIsReadOnlyBySets : Prop :=
  ∀ (i : Instr) (s : State) (x : StrBus),
    ((∀ n, i ≠ .sets n) ∨
      ∃ n, i = .sets n ∧ ∀ k : Nat, k < n → strChar x k = strChar s.input.cstr k) →
    exec i { s with input := { s.input with cstr := x } } =
      (match exec i s with
       | .next t => .next { t with input := { t.input with cstr := x } }
       | .fault f => .fault f
       | .refused r => .refused r)

/-! The host's side. -/

/-- R64: whatever integer the software asks for as a width, the field it goes into makes INIT install the clamped
width; a string's length and first eight characters reach SETS, and a string of more than 255 is always rejected. -/
def Obligations.HostMappingLosesNothing : Prop :=
  (∀ x : Int, wreqOfWidth x ≤ 15 ∧ (clampw (wreqOfWidth x) : Int) = if 1 ≤ x ∧ x ≤ 8 then x else 8) ∧
  (∀ cs : List Byte, lenOfString cs ≤ 255 ∧ (cs.length ≤ 255 → lenOfString cs = cs.length) ∧
    (∀ k : Nat, k < 8 → strChar (busOfString cs) k = cs.getD k 0) ∧
    (255 < cs.length → ∀ s : State, Inv s → s.regs.bstate = .bound →
      exec (.sets (lenOfString cs)) s = .next { s with resp := some (errResponse .invalidSegmentValue) }))

/-- R69: the assembler emits only legal words, each of which decodes to a well-formed command. -/
def Obligations.AssembledWordsAreLegal : Prop :=
  ∀ (line : List Char) (w : CmdWord) (str : StrBus), assembleCommand line = some (w, str) →
    ∃ i : Instr, decode w = .ok i ∧ i.wellFormed = true
end

