-- ==== Sys2Proof/Laws/Memory.lean ====
section
/-!
SUPPORT. The laws of the byte stream (spec/20_memory.md R37, R40, R41): a read after a write, the canonical form,
and the length.
-/

namespace Sys2Proof.Machine

@[simp] theorem Memory.byteAt_nil (i : Nat) : Memory.byteAt [] i = none := rfl

theorem Memory.byteAt_cons (a : Nat) (b : Byte) (m : Memory) (i : Nat) :
    Memory.byteAt ((a, b) :: m) i = if a = i then some b else Memory.byteAt m i := rfl

@[simp] theorem Memory.len_nil : Memory.len [] = 0 := rfl

@[simp] theorem Memory.len_cons (c : Host.Cell) (m : Memory) : Memory.len (c :: m) = Memory.len m + 1 := rfl

/-- A read after a write at the same index gives the byte written (R41). -/
@[simp] theorem Memory.byteAt_put_same (m : Memory) (i : Nat) (v : Byte) :
    (m.put i v).byteAt i = some v := by
  induction m with
  | nil => simp [Memory.put, Memory.byteAt_cons]
  | cons c m ih =>
    obtain ⟨a, b⟩ := c
    simp only [Memory.put]
    split
    · simp [Memory.byteAt_cons]
    · split
      · simp [Memory.byteAt_cons]
      · next h => rw [Memory.byteAt_cons, if_neg (fun e => h e.symm), ih]

/-- A write leaves every other index alone (R41). -/
theorem Memory.byteAt_put_other (m : Memory) {i j : Nat} (v : Byte) (h : j ≠ i) :
    (m.put i v).byteAt j = m.byteAt j := by
  induction m with
  | nil => simp [Memory.put, Memory.byteAt_cons, h.symm]
  | cons c m ih =>
    obtain ⟨a, b⟩ := c
    simp only [Memory.put]
    split
    · rw [Memory.byteAt_cons, if_neg h.symm]
    · split
      · next e => rw [Memory.byteAt_cons, Memory.byteAt_cons, if_neg h.symm, if_neg (e ▸ h.symm)]
      · rw [Memory.byteAt_cons, Memory.byteAt_cons, ih]

theorem Memory.byteAt_put (m : Memory) (i j : Nat) (v : Byte) :
    (m.put i v).byteAt j = if j = i then some v else m.byteAt j := by
  by_cases h : j = i
  · subst h; simp
  · rw [Memory.byteAt_put_other m v h, if_neg h]

theorem Memory.readOrZero_put (m : Memory) (i j : Nat) (v : Byte) :
    (m.put i v).readOrZero j = if j = i then v else m.readOrZero j := by
  unfold Memory.readOrZero
  rw [Memory.byteAt_put]
  split <;> rfl

/-- A write never shortens the stream (R42). -/
theorem Memory.len_le_len_put (m : Memory) (i : Nat) (v : Byte) : m.len ≤ (m.put i v).len := by
  induction m with
  | nil => simp
  | cons c m ih =>
    obtain ⟨a, b⟩ := c
    simp only [Memory.put]
    split
    · simp
    · split
      · simp
      · simpa using ih

theorem Memory.wfFrom_cons {n a : Nat} {b : Byte} {m : Memory} :
    Memory.wfFrom n ((a, b) :: m) = true ↔ a = n ∧ Memory.wfFrom (n + 1) m = true := by
  simp [Memory.wfFrom]

/-- In canonical form from `n` on, exactly the indices `n, ..., n+L-1` are listed. -/
theorem Memory.byteAt_isSome_of_wfFrom {n : Nat} {m : Memory} (h : Memory.wfFrom n m = true) (i : Nat) :
    (m.byteAt i).isSome = true ↔ n ≤ i ∧ i < n + m.len := by
  induction m generalizing n with
  | nil => simp
  | cons c m ih =>
    obtain ⟨a, b⟩ := c
    obtain ⟨rfl, h⟩ := Memory.wfFrom_cons.1 h
    rw [Memory.byteAt_cons]
    split
    · next e => subst e; simp
    · rw [ih h, Memory.len_cons]; omega

/-- In canonical form an index has a byte exactly when it is below `L` (R38, R40). -/
theorem Memory.byteAt_isSome {m : Memory} (h : m.wf = true) (i : Nat) :
    (m.byteAt i).isSome = true ↔ i < m.len := by
  simpa using Memory.byteAt_isSome_of_wfFrom h i

theorem Memory.byteAt_eq_none {m : Memory} (h : m.wf = true) {i : Nat} : m.byteAt i = none ↔ m.len ≤ i := by
  have := Memory.byteAt_isSome h i
  cases hb : m.byteAt i <;> simp_all

/-- Below `L` a read gives a byte, and `ReadOrZero` gives that byte (R13). -/
theorem Memory.byteAt_of_lt {m : Memory} (h : m.wf = true) {i : Nat} (hi : i < m.len) :
    m.byteAt i = some (m.readOrZero i) := by
  obtain ⟨b, hb⟩ := Option.isSome_iff_exists.1 ((Memory.byteAt_isSome h i).2 hi)
  simp [Memory.readOrZero, hb]

/-- A phantom byte reads as 0x00 (R13). -/
theorem Memory.readOrZero_of_le {m : Memory} (h : m.wf = true) {i : Nat} (hi : m.len ≤ i) :
    m.readOrZero i = 0 := by
  simp [Memory.readOrZero, (Memory.byteAt_eq_none h).2 hi]

theorem Memory.wfFrom_put {n i : Nat} {m : Memory} (v : Byte) (h : Memory.wfFrom n m = true) (hn : n ≤ i)
    (hi : i ≤ n + m.len) : Memory.wfFrom n (m.put i v) = true := by
  induction m generalizing n with
  | nil =>
    simp at hi
    simp [Memory.put, Memory.wfFrom]
    omega
  | cons c m ih =>
    obtain ⟨a, b⟩ := c
    obtain ⟨rfl, h⟩ := Memory.wfFrom_cons.1 h
    simp only [Memory.put, Memory.len_cons] at hi ⊢
    rw [if_neg (by omega)]
    split
    · next e => exact Memory.wfFrom_cons.2 ⟨e, h⟩
    · exact Memory.wfFrom_cons.2 ⟨rfl, ih h (by omega) (by omega)⟩

/-- A write at or below `L` keeps the canonical form (R37, R41). -/
theorem Memory.wf_put {m : Memory} {i : Nat} (v : Byte) (h : m.wf = true) (hi : i ≤ m.len) :
    (m.put i v).wf = true :=
  Memory.wfFrom_put v h (Nat.zero_le i) (by simpa using hi)

theorem Memory.len_put_of_wfFrom {n i : Nat} {m : Memory} (v : Byte) (h : Memory.wfFrom n m = true)
    (hn : n ≤ i) :
    (i < n + m.len → (m.put i v).len = m.len) ∧ (i = n + m.len → (m.put i v).len = m.len + 1) := by
  induction m generalizing n with
  | nil => exact ⟨fun hi => by simp at hi; omega, fun _ => rfl⟩
  | cons c m ih =>
    obtain ⟨a, b⟩ := c
    obtain ⟨rfl, h⟩ := Memory.wfFrom_cons.1 h
    rw [Memory.len_cons]
    by_cases e : i = a
    · have hp : Memory.put ((a, b) :: m) i v = (i, v) :: m := by
        simp only [Memory.put]; rw [if_neg (by omega), if_pos e]
      rw [hp, Memory.len_cons]
      exact ⟨fun _ => rfl, fun _ => by omega⟩
    · have hp : Memory.put ((a, b) :: m) i v = (a, b) :: Memory.put m i v := by
        simp only [Memory.put]; rw [if_neg (by omega), if_neg e]
      obtain ⟨h1, h2⟩ := ih h (by omega)
      rw [hp, Memory.len_cons]
      exact ⟨fun hi => by rw [h1 (by omega)], fun hi => by rw [h2 (by omega)]⟩

/-- A write below `L` keeps the length (R41). -/
theorem Memory.len_put_lt {m : Memory} {i : Nat} (v : Byte) (h : m.wf = true) (hi : i < m.len) :
    (m.put i v).len = m.len :=
  (Memory.len_put_of_wfFrom v h (Nat.zero_le i)).1 (by simpa using hi)

/-- A write at `L` adds one byte (R41). -/
theorem Memory.len_put_append {m : Memory} {i : Nat} (v : Byte) (h : m.wf = true) (hi : i = m.len) :
    (m.put i v).len = m.len + 1 :=
  (Memory.len_put_of_wfFrom v h (Nat.zero_le i)).2 (by simpa using hi)

/-- Writing the byte that is there changes nothing (R49). -/
theorem Memory.put_self_of_wfFrom {n i : Nat} {m : Memory} {v : Byte} (h : Memory.wfFrom n m = true)
    (hv : m.byteAt i = some v) : m.put i v = m := by
  induction m generalizing n with
  | nil => simp at hv
  | cons c m ih =>
    obtain ⟨a, b⟩ := c
    obtain ⟨rfl, h⟩ := Memory.wfFrom_cons.1 h
    rw [Memory.byteAt_cons] at hv
    simp only [Memory.put]
    split at hv
    · next e => subst e; simp_all
    · next e =>
      have hi := (Memory.byteAt_isSome_of_wfFrom h i).1 (by simp [hv])
      rw [if_neg (by omega), if_neg (fun x => e x.symm), ih h hv]

theorem Memory.put_self {m : Memory} {i : Nat} {v : Byte} (h : m.wf = true) (hv : m.byteAt i = some v) :
    m.put i v = m :=
  Memory.put_self_of_wfFrom h hv

theorem Memory.wfFrom_ofBytesFrom (n : Nat) (bs : List Byte) :
    Memory.wfFrom n (Memory.ofBytesFrom n bs) = true := by
  induction bs generalizing n with
  | nil => rfl
  | cons b bs ih => exact Memory.wfFrom_cons.2 ⟨rfl, ih (n + 1)⟩

/-- The stream of a byte sequence is in canonical form (R37). -/
theorem Memory.wf_ofBytes (bs : List Byte) : (Memory.ofBytes bs).wf = true := Memory.wfFrom_ofBytesFrom 0 bs

/-- The stream after reset is in canonical form. -/
theorem Memory.wf_reset : State.reset.stream.wf = true := rfl

theorem Memory.len_ofBytesFrom (n : Nat) (bs : List Byte) : (Memory.ofBytesFrom n bs).len = bs.length := by
  induction bs generalizing n with
  | nil => rfl
  | cons b bs ih => simp [Memory.ofBytesFrom, ih]

end Sys2Proof.Machine
end

