-- ==== Sys2Proof/Laws/Datapath.lean ====
section
/-!
SUPPORT. The datapath of spec/40_datapath_mask.md bit by bit: one lemma for each function that says every bit of its
result. Bit `k` counts from the least significant (R8), bit `j` of a rule from the most significant (R9).
-/

namespace Sys2Proof.Machine

theorem ones_testBit (n k : Nat) : (ones n).testBit k = decide (k < n) := by
  simp [ones, Nat.testBit_two_pow_sub_one]

/-- Every bit of a mask (R70): `n` zeros on the side `zl` names. -/
theorem getLsbD_maskGen (zl : Bool) {n k : Nat} (hk : k < 8) :
    (maskGen zl n).getLsbD k = if zl then decide (k < 8 - n) else decide (n ≤ k) := by
  have hf : ∀ i : Nat, (0xFF#8).getLsbD i = decide (i < 8) := by
    intro i
    by_cases hi : i < 8
    · interval_cases i <;> rfl
    · rw [BitVec.getLsbD_of_ge 0xFF#8 i (by omega), decide_eq_false hi]
  cases zl
  · simp only [maskGen, Bool.false_eq_true, if_false, BitVec.getLsbD_shiftLeft, hf]
    by_cases h : n ≤ k
    · simp [h, hk]; omega
    · simp [h]
  · simp only [maskGen, if_true, BitVec.getLsbD_ushiftRight, hf]
    by_cases h : n + k < 8
    · simp [h]; omega
    · simp [h]; omega

/-- Every bit of an extracted field (R75): bit `k` is bit `s + w - 1 - k` from the top of the two bytes. -/
theorem getLsbD_extract (hi lo : Byte) {s w k : Nat} (hs : s ≤ 7) (hw : w ≤ 8) (hk : k < 8) :
    (extract hi lo s w).getLsbD k =
      (decide (k < w) &&
        if s + w - 1 - k < 8 then hi.getLsbD (7 - (s + w - 1 - k)) else lo.getLsbD (15 - (s + w - 1 - k))) := by
  simp only [extract, concatBytes, BitVec.getLsbD_setWidth, BitVec.getLsbD_and, BitVec.getLsbD_ushiftRight,
    BitVec.getLsbD_append, BitVec.getLsbD_ofNat, ones_testBit]
  by_cases h : k < w
  · have e1 : (16 - s - w + k < 8) ↔ ¬ (s + w - 1 - k < 8) := by omega
    by_cases h2 : s + w - 1 - k < 8
    · simp only [e1, h2, h, hk, not_true, if_false, if_true, decide_true, Bool.true_and, Bool.and_true]
      rw [decide_eq_true (by omega : k < 16), Bool.and_true]
      congr 1; omega
    · simp only [e1, h2, h, hk, not_false_iff, if_false, if_true, decide_true, Bool.true_and, Bool.and_true]
      rw [decide_eq_true (by omega : k < 16), Bool.and_true]
      congr 1; omega
  · simp [h]

/-- Every bit of a single-byte insertion (R76). -/
theorem getLsbD_insertSingle (b v : Byte) {s w j : Nat} (hsw : s + w ≤ 8) (hv : v.toNat < 2 ^ w) (hj : j < 8) :
    (insertSingle b s w v).getLsbD (7 - j) =
      if s ≤ j ∧ j < s + w then v.getLsbD (w - 1 - (j - s)) else b.getLsbD (7 - j) := by
  have hv' : ∀ i, w ≤ i → v.getLsbD i = false := fun i hi =>
    Nat.testBit_lt_two_pow (lt_of_lt_of_le hv (Nat.pow_le_pow_right (by omega) hi))
  simp only [insertSingle, setBitsOn, clearBitsOn, BitVec.getLsbD_or, BitVec.getLsbD_and,
    BitVec.getLsbD_shiftLeft, getLsbD_maskGen _ (show 7 - j < 8 by omega)]
  by_cases h : s ≤ j ∧ j < s + w
  · have e1 : ¬ (8 - s ≤ 7 - j) := by omega
    have e2 : ¬ (7 - j < 8 - (s + w)) := by omega
    have e3 : ¬ (7 - j < 8 - s - w) := by omega
    simp only [h, e1, e2, e3, and_self, if_true, Bool.false_eq_true, if_false, decide_false, Bool.or_self,
      Bool.and_false, Bool.false_or, Bool.not_false, Bool.and_true]
    rw [decide_eq_true (by omega : 7 - j < 8), Bool.true_and]
    congr 1; omega
  · rw [if_neg h]
    by_cases h1 : s ≤ j
    · have e2 : 7 - j < 8 - (s + w) := by omega
      have e3 : 7 - j < 8 - s - w := by omega
      simp [e2, e3]
    · have e1 : 8 - s ≤ 7 - j := by omega
      have e4 := hv' (7 - j - (8 - s - w)) (by omega)
      simp [e1, e4]

/-- Every bit of the byte that takes the high part (R77). -/
theorem getLsbD_insertHi (b v : Byte) {s w j : Nat} (hs : s ≤ 7) (hsw : 8 < s + w)
    (hv : v.toNat < 2 ^ w) (hj : j < 8) :
    (insertHi b s w v).getLsbD (7 - j) =
      if s ≤ j then v.getLsbD (w - 1 - (j - s)) else b.getLsbD (7 - j) := by
  have hv' : ∀ i, w ≤ i → v.getLsbD i = false := fun i hi =>
    Nat.testBit_lt_two_pow (lt_of_lt_of_le hv (Nat.pow_le_pow_right (by omega) hi))
  simp only [insertHi, setBitsOn, clearBitsOn, n1, n2, BitVec.getLsbD_or, BitVec.getLsbD_and,
    BitVec.getLsbD_ushiftRight, getLsbD_maskGen _ (show 7 - j < 8 by omega)]
  by_cases h : s ≤ j
  · have e1 : ¬ (8 - s ≤ 7 - j) := by omega
    simp only [h, e1, if_true, Bool.false_eq_true, if_false, decide_false, Bool.and_false, Bool.false_or]
    congr 1; omega
  · have e1 : 8 - s ≤ 7 - j := by omega
    have e4 := hv' (s + w - 8 + (7 - j)) (by omega)
    simp [h, e1, e4]

/-- Every bit of the byte that takes the low part (R78). -/
theorem getLsbD_insertLo (n v : Byte) {s w j : Nat} (hs : s ≤ 7) (hsw : 8 < s + w) (hw : w ≤ 8) (hj : j < 8) :
    (insertLo n s w v).getLsbD (7 - j) =
      if j < s + w - 8 then v.getLsbD (w - 1 - (8 - s + j)) else n.getLsbD (7 - j) := by
  simp only [insertLo, setBitsOn, clearBitsOn, n2, BitVec.getLsbD_or, BitVec.getLsbD_and,
    BitVec.getLsbD_shiftLeft, BitVec.getLsbD_ofNat, ones_testBit, getLsbD_maskGen _ (show 7 - j < 8 by omega)]
  by_cases h : j < s + w - 8
  · have e1 : ¬ (7 - j < 8 - (s + w - 8)) := by omega
    have e2 : 7 - j - (8 - (s + w - 8)) < s + w - 8 := by omega
    have e3 : 7 - j - (8 - (s + w - 8)) < 8 := by omega
    have e4 : 7 - j < 8 := by omega
    simp only [h, e1, e2, e3, e4, if_true, decide_false, decide_true, Bool.and_false, Bool.false_or, Bool.not_false,
      Bool.true_and, Bool.and_true]
    congr 1; omega
  · have e1 : 7 - j < 8 - (s + w - 8) := by omega
    simp [h, e1]

/-- A stream bit is a bit of its byte (R9). -/
theorem Memory.sbit_eq (m : Memory) (q : Nat) :
    m.sbit q = ((m.readOrZero (q / 8)).getLsbD (7 - q % 8)).toNat := by
  simp only [Memory.sbit, BitVec.getLsbD, Nat.testBit, Nat.and_comm _ 1]
  rcases Nat.mod_two_eq_zero_or_one ((m.readOrZero (q / 8)).toNat >>> (7 - q % 8)) with h | h <;>
    simp [Nat.one_and_eq_mod_two, h]

theorem Memory.sbit_le_one (m : Memory) (q : Nat) : m.sbit q ≤ 1 := by
  rw [Memory.sbit_eq]; cases (m.readOrZero (q / 8)).getLsbD (7 - q % 8) <;> simp

@[simp] theorem Memory.seg_zero (m : Memory) (p : Nat) : m.seg p 0 = 0 := rfl

/-- A segment one bit longer has one more low bit (R46). -/
theorem Memory.seg_succ (m : Memory) (p w : Nat) : m.seg p (w + 1) = 2 * m.seg p w + m.sbit (p + w) := by
  have h : ∀ l : List Nat, (∀ j ∈ l, j < w) →
      (l.map fun j => m.sbit (p + j) <<< (w + 1 - 1 - j)).sum =
        2 * (l.map fun j => m.sbit (p + j) <<< (w - 1 - j)).sum := by
    intro l hl
    induction l with
    | nil => rfl
    | cons j l ih =>
      have hj := hl j (by simp)
      rw [List.map_cons, List.map_cons, List.sum_cons, List.sum_cons, ih fun x hx => hl x (by simp [hx])]
      rw [show w + 1 - 1 - j = (w - 1 - j) + 1 by omega, Nat.shiftLeft_succ]
      omega
  unfold Memory.seg
  rw [List.range_succ, List.map_append, List.sum_append, h _ fun j hj => List.mem_range.1 hj]
  simp

theorem Memory.seg_lt (m : Memory) (p w : Nat) : m.seg p w < 2 ^ w := by
  induction w with
  | zero => simp
  | succ w ih =>
    have := m.sbit_le_one (p + w)
    rw [Memory.seg_succ, Nat.pow_succ]
    omega

/-- Every bit of a segment value (R46): bit `k` is the stream bit `p + w - 1 - k`. -/
theorem Memory.testBit_seg (m : Memory) (p w k : Nat) :
    (m.seg p w).testBit k = (decide (k < w) && decide (m.sbit (p + (w - 1 - k)) = 1)) := by
  induction w generalizing k with
  | zero => simp
  | succ w ih =>
    have hb := m.sbit_le_one (p + w)
    rw [Memory.seg_succ]
    cases k with
    | zero =>
      rw [Nat.testBit_zero]
      rw [show w + 1 - 1 - 0 = w by omega]
      simp only [Nat.zero_lt_succ, decide_true, Bool.true_and]
      congr 1
      simp only [eq_iff_iff]
      omega
    | succ k =>
      rw [Nat.testBit_succ, show (2 * m.seg p w + m.sbit (p + w)) / 2 = m.seg p w by omega, ih]
      rw [show w + 1 - 1 - (k + 1) = w - 1 - k by omega]
      simp

/-! Segment strings. -/

/-- The characters of a number's digits, most significant first, are read back as the number (R95). -/
theorem strValue_of_digits {str : StrBus} {n v : Nat} (hv : v < 2 ^ n)
    (h : ∀ k : Nat, k < n → strChar str k = if v.testBit (n - 1 - k) then 0x31#8 else 0x30#8) :
    strValue str n = some v := by
  induction n generalizing v with
  | zero => simp [strValue]; omega
  | succ n ih =>
    have h1 := ih (v := v / 2) (by rw [Nat.pow_succ] at hv; omega) fun k hk => by
      rw [h k (by omega), ← Nat.testBit_succ, show (n - 1 - k).succ = n + 1 - 1 - k by omega]
    have h2 : digitOf (strChar str n) = some (v % 2) := by
      rw [h n (by omega), show n + 1 - 1 - n = 0 by omega, Nat.testBit_zero]
      rcases Nat.mod_two_eq_zero_or_one v with e | e <;> simp [e, digitOf, char0, char1]
    simp only [strValue, h1, h2, Option.some.injEq]
    omega

/-- A character that is no digit makes the string no number (R95). -/
theorem strValue_eq_none {str : StrBus} {n k : Nat} (hk : k < n) (h0 : strChar str k ≠ 0x30#8)
    (h1 : strChar str k ≠ 0x31#8) : strValue str n = none := by
  induction n with
  | zero => omega
  | succ n ih =>
    rcases Nat.lt_succ_iff_lt_or_eq.1 hk with hk | rfl
    · simp [strValue, ih hk]
    · have : digitOf (strChar str k) = none := by simp [digitOf, char0, char1, h0, h1]
      simp only [strValue, this]
      split <;> simp_all

end Sys2Proof.Machine
end

