-- ==== Sys2Proof/Laws/State.lean ====
section
/-!
SUPPORT. One lemma per field of State per named update, so that no later proof unfolds a record update.
-/

namespace Sys2Proof.Machine

@[simp] theorem State.setRegs_params (r : Regs) (s : State) : (State.setRegs r s).params = s.params := rfl
@[simp] theorem State.setRegs_regs (r : Regs) (s : State) : (State.setRegs r s).regs = r := rfl
@[simp] theorem State.setRegs_stream (r : Regs) (s : State) : (State.setRegs r s).stream = s.stream := rfl
@[simp] theorem State.setRegs_input (r : Regs) (s : State) : (State.setRegs r s).input = s.input := rfl
@[simp] theorem State.setRegs_inbox (r : Regs) (s : State) : (State.setRegs r s).inbox = s.inbox := rfl
@[simp] theorem State.setRegs_resp (r : Regs) (s : State) : (State.setRegs r s).resp = s.resp := rfl
@[simp] theorem State.setRegs_accesses (r : Regs) (s : State) : (State.setRegs r s).accesses = s.accesses := rfl
@[simp] theorem State.setRegs_draws (r : Regs) (s : State) : (State.setRegs r s).draws = s.draws := rfl

@[simp] theorem State.setStream_params (m : Memory) (s : State) : (State.setStream m s).params = s.params := rfl
@[simp] theorem State.setStream_regs (m : Memory) (s : State) : (State.setStream m s).regs = s.regs := rfl
@[simp] theorem State.setStream_stream (m : Memory) (s : State) : (State.setStream m s).stream = m := rfl
@[simp] theorem State.setStream_input (m : Memory) (s : State) : (State.setStream m s).input = s.input := rfl
@[simp] theorem State.setStream_inbox (m : Memory) (s : State) : (State.setStream m s).inbox = s.inbox := rfl
@[simp] theorem State.setStream_resp (m : Memory) (s : State) : (State.setStream m s).resp = s.resp := rfl
@[simp] theorem State.setStream_accesses (m : Memory) (s : State) : (State.setStream m s).accesses = s.accesses := rfl
@[simp] theorem State.setStream_draws (m : Memory) (s : State) : (State.setStream m s).draws = s.draws := rfl

@[simp] theorem State.setResp_params (r : Option Response) (s : State) : (State.setResp r s).params = s.params := rfl
@[simp] theorem State.setResp_regs (r : Option Response) (s : State) : (State.setResp r s).regs = s.regs := rfl
@[simp] theorem State.setResp_stream (r : Option Response) (s : State) : (State.setResp r s).stream = s.stream := rfl
@[simp] theorem State.setResp_input (r : Option Response) (s : State) : (State.setResp r s).input = s.input := rfl
@[simp] theorem State.setResp_inbox (r : Option Response) (s : State) : (State.setResp r s).inbox = s.inbox := rfl
@[simp] theorem State.setResp_resp (r : Option Response) (s : State) : (State.setResp r s).resp = r := rfl
@[simp] theorem State.setResp_accesses (r : Option Response) (s : State) : (State.setResp r s).accesses = s.accesses := rfl
@[simp] theorem State.setResp_draws (r : Option Response) (s : State) : (State.setResp r s).draws = s.draws := rfl

@[simp] theorem State.addAccess_params (a : Access) (s : State) : (State.addAccess a s).params = s.params := rfl
@[simp] theorem State.addAccess_regs (a : Access) (s : State) : (State.addAccess a s).regs = s.regs := rfl
@[simp] theorem State.addAccess_stream (a : Access) (s : State) : (State.addAccess a s).stream = s.stream := rfl
@[simp] theorem State.addAccess_input (a : Access) (s : State) : (State.addAccess a s).input = s.input := rfl
@[simp] theorem State.addAccess_inbox (a : Access) (s : State) : (State.addAccess a s).inbox = s.inbox := rfl
@[simp] theorem State.addAccess_resp (a : Access) (s : State) : (State.addAccess a s).resp = s.resp := rfl
@[simp] theorem State.addAccess_accesses (a : Access) (s : State) : (State.addAccess a s).accesses = s.accesses ++ [a] := rfl
@[simp] theorem State.addAccess_draws (a : Access) (s : State) : (State.addAccess a s).draws = s.draws := rfl

@[simp] theorem State.nextDraw_params (s : State) : (State.nextDraw s).params = s.params := rfl
@[simp] theorem State.nextDraw_regs (s : State) : (State.nextDraw s).regs = s.regs := rfl
@[simp] theorem State.nextDraw_stream (s : State) : (State.nextDraw s).stream = s.stream := rfl
@[simp] theorem State.nextDraw_input (s : State) : (State.nextDraw s).input = s.input := rfl
@[simp] theorem State.nextDraw_inbox (s : State) : (State.nextDraw s).inbox = s.inbox := rfl
@[simp] theorem State.nextDraw_resp (s : State) : (State.nextDraw s).resp = s.resp := rfl
@[simp] theorem State.nextDraw_accesses (s : State) : (State.nextDraw s).accesses = s.accesses := rfl
@[simp] theorem State.nextDraw_draws (s : State) : (State.nextDraw s).draws = s.draws + 1 := rfl

@[simp] theorem present_params (c : Command) (s : State) : (present c s).params = s.params := rfl
@[simp] theorem present_regs (c : Command) (s : State) : (present c s).regs = s.regs := rfl
@[simp] theorem present_stream (c : Command) (s : State) : (present c s).stream = s.stream := rfl
@[simp] theorem present_input (c : Command) (s : State) : (present c s).input = c.input := rfl
@[simp] theorem present_inbox (c : Command) (s : State) : (present c s).inbox = s.inbox := rfl
@[simp] theorem present_resp (c : Command) (s : State) : (present c s).resp = s.resp := rfl
@[simp] theorem present_accesses (c : Command) (s : State) : (present c s).accesses = [] := rfl
@[simp] theorem present_draws (c : Command) (s : State) : (present c s).draws = s.draws := rfl

@[simp] theorem resetEvent_params (s : State) : (resetEvent s).params = s.params := rfl
@[simp] theorem resetEvent_regs (s : State) : (resetEvent s).regs = Regs.reset := rfl
@[simp] theorem resetEvent_stream (s : State) : (resetEvent s).stream = s.stream := rfl
@[simp] theorem resetEvent_input (s : State) : (resetEvent s).input = s.input := rfl
@[simp] theorem resetEvent_inbox (s : State) : (resetEvent s).inbox = s.inbox := rfl
@[simp] theorem resetEvent_resp (s : State) : (resetEvent s).resp = none := rfl
@[simp] theorem resetEvent_accesses (s : State) : (resetEvent s).accesses = [] := rfl
@[simp] theorem resetEvent_draws (s : State) : (resetEvent s).draws = s.draws := rfl

@[simp] theorem State.withFetchWord_params (s : State) (nbits w : Nat) :
    (s.withFetchWord nbits w).params = s.params := rfl
@[simp] theorem State.withFetchWord_regs (s : State) (nbits w : Nat) :
    (s.withFetchWord nbits w).regs = s.regs := rfl
@[simp] theorem State.withFetchWord_stream (s : State) (nbits w : Nat) :
    (s.withFetchWord nbits w).stream = s.stream := rfl
@[simp] theorem State.withFetchWord_input (s : State) (nbits w : Nat) :
    (s.withFetchWord nbits w).input = s.input := rfl
@[simp] theorem State.withFetchWord_inbox (s : State) (nbits w : Nat) :
    (s.withFetchWord nbits w).inbox = .command { word := BitVec.ofNat 16 (w % 2 ^ nbits), input := s.input } :: s.inbox := rfl
@[simp] theorem State.withFetchWord_resp (s : State) (nbits w : Nat) :
    (s.withFetchWord nbits w).resp = s.resp := rfl
@[simp] theorem State.withFetchWord_accesses (s : State) (nbits w : Nat) :
    (s.withFetchWord nbits w).accesses = s.accesses := rfl
@[simp] theorem State.withFetchWord_draws (s : State) (nbits w : Nat) :
    (s.withFetchWord nbits w).draws = s.draws := rfl

/-! The registers after reset (R18, R121). -/

@[simp] theorem Regs.reset_bstate : Regs.reset.bstate = .unbound := rfl
@[simp] theorem Regs.reset_width : Regs.reset.width = 8 := rfl
@[simp] theorem Regs.reset_boff : Regs.reset.boff = 0 := rfl
@[simp] theorem Regs.reset_sidx : Regs.reset.sidx = 0 := rfl
@[simp] theorem Regs.reset_curb : Regs.reset.curb = 0 := rfl
@[simp] theorem Regs.reset_val : Regs.reset.val = 0 := rfl
@[simp] theorem Regs.reset_empty : Regs.reset.empty = true := rfl

/-! The registers INIT installs (R82). -/

@[simp] theorem initRegs_bstate (b : BState) (w : Nat) (e : Bool) (c v : Byte) :
    (initRegs b w e c v).bstate = b := rfl
@[simp] theorem initRegs_width (b : BState) (w : Nat) (e : Bool) (c v : Byte) :
    (initRegs b w e c v).width = BitVec.ofNat 4 w := rfl
@[simp] theorem initRegs_boff (b : BState) (w : Nat) (e : Bool) (c v : Byte) :
    (initRegs b w e c v).boff = 0 := rfl
@[simp] theorem initRegs_sidx (b : BState) (w : Nat) (e : Bool) (c v : Byte) :
    (initRegs b w e c v).sidx = 0 := rfl
@[simp] theorem initRegs_curb (b : BState) (w : Nat) (e : Bool) (c v : Byte) :
    (initRegs b w e c v).curb = c := rfl
@[simp] theorem initRegs_val (b : BState) (w : Nat) (e : Bool) (c v : Byte) :
    (initRegs b w e c v).val = v := rfl
@[simp] theorem initRegs_empty (b : BState) (w : Nat) (e : Bool) (c v : Byte) :
    (initRegs b w e c v).empty = e := rfl

/-! The registers after a write of the segment (R89). -/

@[simp] theorem segmentRegs_bstate (v : Byte) (s : State) : (segmentRegs v s).bstate = s.regs.bstate := rfl
@[simp] theorem segmentRegs_width (v : Byte) (s : State) : (segmentRegs v s).width = s.regs.width := rfl
@[simp] theorem segmentRegs_boff (v : Byte) (s : State) : (segmentRegs v s).boff = s.regs.boff := rfl
@[simp] theorem segmentRegs_sidx (v : Byte) (s : State) : (segmentRegs v s).sidx = s.regs.sidx := rfl
@[simp] theorem segmentRegs_curb (v : Byte) (s : State) : (segmentRegs v s).curb = segmentCurb v s := rfl
@[simp] theorem segmentRegs_val (v : Byte) (s : State) : (segmentRegs v s).val = v := rfl
@[simp] theorem segmentRegs_empty (v : Byte) (s : State) : (segmentRegs v s).empty = false := rfl

end Sys2Proof.Machine
end

