-- ==== Sys2Proof/Laws/Ops.lean ====
section
/-!
SUPPORT. For each shared operation, one lemma that says once everything it can do. Proofs cite these and do not
unfold the operation.
-/

namespace Sys2Proof.Machine

/-! Endings of a command (R14). -/

theorem respond_eq_next {d : Byte} {n : BitVec 8} {str : StrBus} {s t : State} :
    respond d n str s = .next t ↔ t = s.setResp (some (okResponse d n str)) := by
  simp only [respond, Host.Outcome.next.injEq]
  exact eq_comm

theorem raise_eq_next {e : Err} {s t : State} : raise e s = .next t ↔ t = s.setResp (some (errResponse e)) := by
  simp only [raise, Host.Outcome.next.injEq]
  exact eq_comm

theorem respond_ne_fault {d : Byte} {n : BitVec 8} {str : StrBus} {s : State} {f : Fault} :
    respond d n str s ≠ .fault f := by simp [respond]

theorem raise_ne_fault {e : Err} {s : State} {f : Fault} : raise e s ≠ .fault f := by simp [raise]

@[simp] theorem okResponse_ok (d : Byte) (n : BitVec 8) (str : StrBus) : (okResponse d n str).ok = true := rfl

@[simp] theorem errResponse_ok (e : Err) : (errResponse e).ok = false := rfl

/-! The binding check (R109). -/

theorem bindingError_eq_none {s : State} : bindingError s = none ↔ s.regs.bstate = .bound := by
  unfold bindingError
  split <;> simp_all

theorem bindingError_eq_some {s : State} {e : Err} :
    bindingError s = some e ↔
      (s.regs.bstate = .unbound ∧ e = .notBound) ∨ (s.regs.bstate = .failed ∧ e = .streamOpenError) := by
  cases h : s.regs.bstate <;> simp [bindingError, h, eq_comm]

/-! The stream port (R39 to R41). -/

@[simp] theorem streamOpen_fst (s : State) :
    (streamOpen s).1 = if s.input.openOk then some s.stream.len else none := rfl

@[simp] theorem streamOpen_snd (s : State) : (streamOpen s).2 = s.addAccess .openStream := rfl

@[simp] theorem memRead_fst (i : Nat) (s : State) : (memRead i s).1 = s.stream.byteAt i := rfl

@[simp] theorem memRead_snd (i : Nat) (s : State) : (memRead i s).2 = s.addAccess (.read i) := rfl

@[simp] theorem readOrZero_fst (i : Nat) (s : State) : (readOrZero i s).1 = s.stream.readOrZero i := rfl

@[simp] theorem readOrZero_snd (i : Nat) (s : State) : (readOrZero i s).2 = s.addAccess (.read i) := rfl

/-- A write that is answered: at most at `L`, within the capacity; it changes the stream and records itself. -/
theorem memWrite_eq_ok {i : Nat} {v : Byte} {s s' : State} :
    memWrite i v s = .ok s' ↔
      i ≤ s.stream.len ∧ (i = s.stream.len → s.stream.len < s.params.streamCapacity) ∧
        s' = (s.setStream (s.stream.put i v)).addAccess (.write i v) := by
  unfold memWrite
  split
  · simp only [reduceCtorEq, false_iff]; omega
  · split
    · simp only [reduceCtorEq, false_iff]; omega
    · simp only [Except.ok.injEq]
      constructor
      · intro h
        exact ⟨by omega, by omega, h.symm⟩
      · rintro ⟨_, _, rfl⟩
        rfl

/-- A write that faults: past `L`, or an append beyond the capacity. -/
theorem memWrite_eq_error {i : Nat} {v : Byte} {s : State} {f : Fault} :
    memWrite i v s = .error f ↔
      (s.stream.len < i ∧ f = .invariantBroken) ∨
        (i = s.stream.len ∧ s.params.streamCapacity ≤ s.stream.len ∧ f = .streamFull) := by
  unfold memWrite
  split
  · next h =>
    simp only [Except.error.injEq]
    constructor
    · rintro rfl; exact .inl ⟨h, rfl⟩
    · rintro (⟨_, rfl⟩ | ⟨e, _⟩)
      · rfl
      · omega
  · split
    · next h =>
      simp only [Except.error.injEq]
      constructor
      · rintro rfl; exact .inr ⟨h.1, by omega, rfl⟩
      · rintro (⟨_, _⟩ | ⟨_, _, rfl⟩)
        · omega
        · rfl
    · simp only [reduceCtorEq, false_iff]
      rintro (⟨_, _⟩ | ⟨_, _, _⟩) <;> omega

@[simp] theorem memWrites_nil (s : State) : memWrites [] s = .ok s := rfl

theorem memWrites_cons (i : Nat) (v : Byte) (ws : List (Nat × Byte)) (s : State) :
    memWrites ((i, v) :: ws) s =
      match memWrite i v s with
      | .ok s' => memWrites ws s'
      | .error f => .error f := rfl

/-- The first write of a sequence that is answered is answered, and the rest follow it (R52). -/
theorem memWrites_cons_eq_ok {i : Nat} {v : Byte} {ws : List (Nat × Byte)} {s t : State} :
    memWrites ((i, v) :: ws) s = .ok t ↔ ∃ s', memWrite i v s = .ok s' ∧ memWrites ws s' = .ok t := by
  rw [memWrites_cons]
  cases memWrite i v s <;> simp

/-- A write leaves every field but the stream and the record of accesses. -/
theorem memWrite_frame {i : Nat} {v : Byte} {s t : State} (h : memWrite i v s = .ok t) :
    t = { s with stream := t.stream, accesses := t.accesses } := by
  obtain ⟨_, _, rfl⟩ := memWrite_eq_ok.1 h
  rfl

/-- A sequence of writes leaves every field but the stream and the record of accesses. -/
theorem memWrites_frame {ws : List (Nat × Byte)} {s t : State} (h : memWrites ws s = .ok t) :
    t = { s with stream := t.stream, accesses := t.accesses } := by
  induction ws generalizing s with
  | nil => simp at h; subst h; rfl
  | cons w ws ih =>
    obtain ⟨s', h1, h2⟩ := memWrites_cons_eq_ok.1 h
    have h3 := ih h2
    rw [memWrite_frame h1] at h3
    exact h3

/-- A sequence of writes leaves every index it does not name (R41). -/
theorem memWrites_byteAt_other {ws : List (Nat × Byte)} {s t : State} (h : memWrites ws s = .ok t) {a : Nat}
    (ha : a ∉ ws.map Prod.fst) : t.stream.byteAt a = s.stream.byteAt a := by
  induction ws generalizing s with
  | nil => simp at h; subst h; rfl
  | cons w ws ih =>
    obtain ⟨s', h1, h2⟩ := memWrites_cons_eq_ok.1 h
    simp only [List.map_cons, List.mem_cons, not_or] at ha
    rw [ih h2 ha.2]
    obtain ⟨_, _, rfl⟩ := memWrite_eq_ok.1 h1
    exact Memory.byteAt_put_other _ _ ha.1

/-- The stream after a sequence of writes, one after another (R41, R52). -/
theorem memWrites_eq {ws : List (Nat × Byte)} {s t : State} (h : memWrites ws s = .ok t) :
    t = { s with
      stream := ws.foldl (fun m x => m.put x.1 x.2) s.stream
      accesses := s.accesses ++ ws.map fun x => .write x.1 x.2 } := by
  induction ws generalizing s with
  | nil => simp at h; subst h; simp
  | cons w ws ih =>
    obtain ⟨s', h1, h2⟩ := memWrites_cons_eq_ok.1 h
    obtain ⟨_, _, rfl⟩ := memWrite_eq_ok.1 h1
    simpa [State.setStream, State.addAccess] using ih h2

/-- A sequence of writes faults where its first write does, or a later one after it (R52). -/
theorem memWrites_cons_eq_error {i : Nat} {v : Byte} {ws : List (Nat × Byte)} {s : State} {f : Fault} :
    memWrites ((i, v) :: ws) s = .error f ↔
      memWrite i v s = .error f ∨ ∃ s', memWrite i v s = .ok s' ∧ memWrites ws s' = .error f := by
  rw [memWrites_cons]
  cases memWrite i v s <;> simp

/-- A sequence of writes keeps the canonical form, and never shortens the stream (R37, R42). -/
theorem memWrites_wf {ws : List (Nat × Byte)} {s t : State} (h : memWrites ws s = .ok t)
    (hw : s.stream.wf = true) : t.stream.wf = true ∧ s.stream.len ≤ t.stream.len := by
  induction ws generalizing s with
  | nil => simp at h; subst h; exact ⟨hw, le_refl _⟩
  | cons w ws ih =>
    obtain ⟨s', h1, h2⟩ := memWrites_cons_eq_ok.1 h
    obtain ⟨hi, _, rfl⟩ := memWrite_eq_ok.1 h1
    obtain ⟨ht, hl⟩ := ih h2 (Memory.wf_put _ hw hi)
    exact ⟨ht, le_trans (Memory.len_le_len_put _ _ _) hl⟩

/-! Writing the segment (R89). -/

/-- Everything a segment write that is answered does: the writes succeed after the read of the second byte where
the segment straddles, and then the registers and the response follow. -/
theorem writeSegment_eq_next {v : Byte} {s t : State} :
    writeSegment v s = .next t ↔
      ∃ s', memWrites (segmentWrites v s)
          (if straddles s then s.addAccess (.read (s.regs.boff + 1)) else s) = .ok s' ∧
        t = (s'.setRegs (segmentRegs v s)).setResp (some (okResponse 0 0 0)) := by
  unfold writeSegment
  simp only [readOrZero_snd]
  cases memWrites (segmentWrites v s)
      (if straddles s then s.addAccess (.read (s.regs.boff + 1)) else s) with
  | error f => simp
  | ok s' => simp [respond_eq_next]

/-- A segment write that is answered leaves the stream with all of its writes (R52, R89). -/
theorem writeSegment_stream {v : Byte} {s u : State} (h : writeSegment v s = .next u) :
    u.stream = (segmentWrites v s).foldl (fun m x => m.put x.1 x.2) s.stream := by
  obtain ⟨s', h1, rfl⟩ := writeSegment_eq_next.1 h
  rw [memWrites_eq h1]
  cases straddles s <;> rfl

/-- A segment write faults exactly as its writes do. -/
theorem writeSegment_eq_fault {v : Byte} {s : State} {f : Fault} :
    writeSegment v s = .fault f ↔
      memWrites (segmentWrites v s)
          (if straddles s then s.addAccess (.read (s.regs.boff + 1)) else s) = .error f := by
  unfold writeSegment
  simp only [readOrZero_snd]
  cases memWrites (segmentWrites v s)
      (if straddles s then s.addAccess (.read (s.regs.boff + 1)) else s) with
  | error g => simp
  | ok s' => simp [respond_ne_fault]

/-- A segment write is never refused. -/
theorem writeSegment_ne_refused {v : Byte} {s : State} {r : Refusal} : writeSegment v s ≠ .refused r := by
  unfold writeSegment
  split <;> simp [respond]

/-! The parameters (R7). -/

/-- This machine's parameters satisfy R7's constraint, whatever their values. -/
theorem Config.params_fits : Config.params.fits := by
  show Config.streamCapacity + 1 < 2 ^ (Nat.log2 (Config.streamCapacity + 1) + 1 + Config.offsetWSlack)
  have h := Nat.lt_log2_self (n := Config.streamCapacity + 1)
  exact lt_of_lt_of_le h (Nat.pow_le_pow_right (by omega) (by omega))

/-! One input (R58). -/

@[simp] theorem step_idle {s : State} (h : s.inbox = []) : step s = .next s := by simp [step, takeNext, h]

theorem step_input {s : State} {x : HostInput} {rest : List HostInput} (h : s.inbox = x :: rest) :
    step s = takeInput x { s with inbox := rest } := by simp [step, takeNext, h]

end Sys2Proof.Machine
end

