-- ==== Sys2Proof/Laws/Meanings.lean ====
section
/-!
SUPPORT. What each path of a meaning does, as one equation: the accesses of its operations are gathered in a list and
its register writes in one record, so that proofs need not thread the state through them again.
-/

namespace Sys2Proof.Machine

/-- The stream writes of a segment write, path by path (R90 to R92). -/
theorem segmentWrites_of_empty {s : State} (v : Byte) (h : s.regs.empty = true) :
    segmentWrites v s = [(0, v <<< (8 - s.regs.w))] := by
  simp [segmentWrites, h]

theorem segmentWrites_of_single {s : State} (v : Byte) (h : s.regs.empty = false)
    (h1 : s.regs.s + s.regs.w ≤ 8) :
    segmentWrites v s = [(s.regs.boff, insertSingle s.regs.curb s.regs.s s.regs.w v)] := by
  simp [segmentWrites, h, single, h1]

theorem segmentWrites_of_straddle {s : State} (v : Byte) (h : s.regs.empty = false)
    (h1 : 8 < s.regs.s + s.regs.w) :
    segmentWrites v s =
      [(s.regs.boff, insertHi s.regs.curb s.regs.s s.regs.w v),
        (s.regs.boff + 1, insertLo (s.stream.readOrZero (s.regs.boff + 1)) s.regs.s s.regs.w v)] := by
  simp [segmentWrites, h, single, h1]

/-- Whether the second byte is read before a segment write (R53). -/
theorem straddles_iff {s : State} :
    straddles s = true ↔ s.regs.empty = false ∧ 8 < s.regs.s + s.regs.w := by
  simp [straddles, single]

/-- MVL within CURB makes no access (R97, first branch). -/
theorem execMvl_within {s : State} (hb : s.regs.bstate = .bound) (ha : atStart s = false)
    (hw : s.regs.w ≤ s.regs.s) :
    execMvl s = .next { s with
      regs := { s.regs with
        val := extract s.regs.curb 0 (s.regs.s - s.regs.w) s.regs.w
        sidx := BitVec.ofNat 3 (s.regs.s - s.regs.w) }
      resp := some (okResponse 0 0 0) } := by
  unfold execMvl
  rw [bindingError_eq_none.2 hb]
  simp [ha, hw, respond, State.setRegs, State.setResp]

/-- MVL into the previous byte reads it (R97, second branch). -/
theorem execMvl_across {s : State} {b : Byte} (hb : s.regs.bstate = .bound) (ha : atStart s = false)
    (hw : s.regs.s < s.regs.w) (h0 : s.regs.boff ≠ 0) (hr : s.stream.byteAt (s.regs.boff - 1) = some b) :
    execMvl s = .next { s with
      regs := { s.regs with
        val := extract b s.regs.curb (s.regs.s + 8 - s.regs.w) s.regs.w
        curb := b
        boff := s.regs.boff - 1
        sidx := BitVec.ofNat 3 (s.regs.s + 8 - s.regs.w) }
      accesses := s.accesses ++ [.read (s.regs.boff - 1)]
      resp := some (okResponse 0 0 0) } := by
  unfold execMvl
  rw [bindingError_eq_none.2 hb]
  simp [ha, hw, h0, memRead, hr, respond, State.setRegs, State.setResp, State.addAccess]

/-- The current byte after a move right, and what reading it records (R100). -/
theorem nextCurb_eq (b' : Nat) (s : State) :
    nextCurb b' s =
      (if b' = s.regs.boff then s.regs.curb else s.stream.readOrZero b',
        { s with accesses := s.accesses ++ if b' = s.regs.boff then [] else [.read b'] }) := by
  unfold nextCurb
  split <;> simp [readOrZero, State.addAccess]

/-- The byte after it, and what reading it records (R100). -/
theorem nextLow_eq (b' s' w : Nat) (s : State) :
    nextLow b' s' w s =
      (if 8 < s' + w then s.stream.readOrZero (b' + 1) else 0,
        { s with accesses := s.accesses ++ if 8 < s' + w then [.read (b' + 1)] else [] }) := by
  unfold nextLow
  split <;> simp [readOrZero, State.addAccess]

/-- MVR whose probe finds a byte (R100): `q` is the position one segment to the right. -/
theorem execMvr_of_probe {s : State} {x : Byte} {q : Nat} (hb : s.regs.bstate = .bound)
    (he : s.regs.empty = false) (hq : q = s.regs.p + s.regs.w)
    (hp : s.stream.byteAt (endbyte s.regs.boff s.regs.s s.regs.w) = some x) :
    execMvr s = .next { s with
      regs := { s.regs with
        val := extract (if q / 8 = s.regs.boff then s.regs.curb else s.stream.readOrZero (q / 8))
          (if 8 < q % 8 + s.regs.w then s.stream.readOrZero (q / 8 + 1) else 0) (q % 8) s.regs.w
        curb := if q / 8 = s.regs.boff then s.regs.curb else s.stream.readOrZero (q / 8)
        boff := q / 8
        sidx := BitVec.ofNat 3 (q % 8) }
      accesses := s.accesses ++ [.read (endbyte s.regs.boff s.regs.s s.regs.w)] ++
        (if q / 8 = s.regs.boff then [] else [.read (q / 8)]) ++
        (if 8 < q % 8 + s.regs.w then [.read (q / 8 + 1)] else [])
      resp := some (okResponse 0 0 0) } := by
  subst hq
  unfold execMvr
  rw [bindingError_eq_none.2 hb]
  simp only [he, Bool.false_eq_true, if_false, memRead, hp, nextCurb_eq, nextLow_eq]
  simp [respond, State.setRegs, State.setResp, State.addAccess, nextPos, decByte, decBit, Regs.p]
  exact ⟨⟨rfl, rfl⟩, rfl⟩

/-- MVR whose probe meets the end of the stream (R99). -/
theorem execMvr_of_eof {s : State} (hb : s.regs.bstate = .bound) (he : s.regs.empty = false)
    (hp : s.stream.byteAt (endbyte s.regs.boff s.regs.s s.regs.w) = none) :
    execMvr s = .next { s with
      accesses := s.accesses ++ [.read (endbyte s.regs.boff s.regs.s s.regs.w)]
      resp := some (errResponse .boundaryViolation) } := by
  unfold execMvr
  rw [bindingError_eq_none.2 hb]
  simp [he, memRead, hp, raise, State.setResp, State.addAccess]

/-! The writes of a command, and a reset during it (R53, R122). -/

/-- The writes of a SET or SETS that accepts `v` (R89, R95). -/
theorem commandWrites_of_accepted {i : Instr} {v : Nat} {s : State} (hb : s.regs.bstate = .bound)
    (hv : v < 2 ^ s.regs.w) (hi : i = .set v ∨ i = .sets s.regs.w ∧ stringOperand s.regs.w s = some v) :
    commandWrites i s = segmentWrites (BitVec.ofNat 8 v) s := by
  have ht : tooWide v s = false := by simp [tooWide, hv]
  rcases hi with rfl | ⟨rfl, h⟩
  · simp [commandWrites, bindingError_eq_none.2 hb, ht]
  · simp [commandWrites, bindingError_eq_none.2 hb, ht, h]

/-- A command other than SET and SETS makes no stream write (R53). -/
theorem commandWrites_of_other {j : Instr} (s : State) (h1 : ∀ v, j ≠ .set v) (h2 : ∀ v, j ≠ .sets v) :
    commandWrites j s = [] := by
  unfold commandWrites
  split
  · rfl
  · cases j <;> first | rfl | exact absurd rfl (h1 _) | exact absurd rfl (h2 _)

/-- SET runs to its end with all of `commandWrites` in the stream (R53). -/
theorem execSet_stream {v : Nat} {s u : State} (h : execSet v s = .next u) :
    u.stream = (commandWrites (.set v) s).foldl (fun m x => m.put x.1 x.2) s.stream := by
  cases he : bindingError s with
  | some e =>
    simp only [execSet, he] at h
    simp [commandWrites, he, raise_eq_next.1 h]
  | none =>
    by_cases ht : tooWide v s = true
    · simp only [execSet, he, ht, if_true] at h
      simp [commandWrites, he, ht, raise_eq_next.1 h]
    · simp only [execSet, he, if_neg ht] at h
      simp only [commandWrites, he, if_neg ht]
      exact writeSegment_stream h

/-- SETS runs to its end with all of `commandWrites` in the stream (R53). -/
theorem execSets_stream {n : Nat} {s u : State} (h : execSets n s = .next u) :
    u.stream = (commandWrites (.sets n) s).foldl (fun m x => m.put x.1 x.2) s.stream := by
  cases he : bindingError s with
  | some e =>
    simp only [execSets, he] at h
    simp [commandWrites, he, raise_eq_next.1 h]
  | none =>
    cases hv : stringOperand n s with
    | none =>
      simp only [execSets, he, hv] at h
      simp [commandWrites, he, hv, raise_eq_next.1 h]
    | some v =>
      by_cases ht : tooWide v s = true
      · simp only [execSets, he, hv, ht, if_true] at h
        simp [commandWrites, he, hv, ht, raise_eq_next.1 h]
      · simp only [execSets, he, hv, if_neg ht] at h
        simp only [commandWrites, he, hv, if_neg ht]
        exact writeSegment_stream h

/-- Everything a reset during a command does, once its word is decoded (R122). -/
theorem abortCommand_of_decode {c : Command} {k : Nat} {i : Instr} {s : State} (h : decode c.word = .ok i) :
    abortCommand c k s =
      match memWrites ((commandWrites i (present c s)).take k) (present c s) with
      | .ok s' => .next { resetEvent s' with accesses := s'.accesses }
      | .error f => .fault f := by
  unfold abortCommand
  split
  · next he => rw [h] at he; cases he
  · next j hj => rw [h] at hj; cases hj; rfl

end Sys2Proof.Machine
end

