-- ==== Sys2Proof/Laws/PerInstr.lean ====
section
/-!
SUPPORT. One lemma per constructor of Instr: the encoder writes a word of the instruction's own row of
spec/opcode_table.json.
-/

namespace Sys2Proof.Laws

/-- The row's `mask` and `match` in spec/opcode_table.json. -/
def tableRow : Instr → CmdWord × CmdWord
  | .init _ => (0xFFF0, 0x1000)
  | .get => (0xFFFF, 0x2000)
  | .gets => (0xFFFF, 0x3000)
  | .set _ => (0xFF00, 0x4000)
  | .sets _ => (0xFF00, 0x5000)
  | .mvl => (0xFFFF, 0x6000)
  | .mvr => (0xFFFF, 0x7000)
  | .mask _ _ => (0xFFE0, 0x8000)

/-- The word of a well-formed instruction has the fixed bits of its row. -/
def EncodesItsRow.Statement (i : Instr) : Prop :=
  i.wellFormed = true → encode i &&& (tableRow i).1 = (tableRow i).2

theorem EncodesItsRow.init (wreq : Nat) : EncodesItsRow.Statement (.init wreq) := by
  intro h
  have h' : wreq < 16 := by simpa [Instr.wellFormed, Nat.lt_succ_iff] using h
  clear h
  revert wreq
  decide

theorem EncodesItsRow.get : EncodesItsRow.Statement .get := fun _ => by decide

theorem EncodesItsRow.gets : EncodesItsRow.Statement .gets := fun _ => by decide

set_option maxRecDepth 4000 in
theorem EncodesItsRow.set (val8 : Nat) : EncodesItsRow.Statement (.set val8) := by
  intro h
  have h' : val8 < 256 := by simpa [Instr.wellFormed, Nat.lt_succ_iff] using h
  clear h
  revert val8
  decide

set_option maxRecDepth 4000 in
theorem EncodesItsRow.sets (len : Nat) : EncodesItsRow.Statement (.sets len) := by
  intro h
  have h' : len < 256 := by simpa [Instr.wellFormed, Nat.lt_succ_iff] using h
  clear h
  revert len
  decide

theorem EncodesItsRow.mvl : EncodesItsRow.Statement .mvl := fun _ => by decide

theorem EncodesItsRow.mvr : EncodesItsRow.Statement .mvr := fun _ => by decide

theorem EncodesItsRow.mask (zl : Bool) (zc : Nat) : EncodesItsRow.Statement (.mask zl zc) := by
  intro h
  have h' : zc < 16 := by simpa [Instr.wellFormed, Nat.lt_succ_iff] using h
  clear h
  revert zl zc
  decide

end Sys2Proof.Laws
end

