-- ==== Sys2Proof/Laws/Safety.lean ====
section
/-!
SUPPORT. The invariants as a Boolean check, so that a concrete state is shown good by evaluation, and the facts about
a good state that proofs use most.
-/

namespace Sys2Proof.Machine

/-- The conditions of `Inv`, evaluated. -/
def invCheck (s : State) : Bool :=
  decide (1 ≤ s.regs.w) && decide (s.regs.w ≤ 8) && decide (s.regs.val.toNat < 2 ^ s.regs.w) &&
    decide (s.regs.empty = true → s.regs.val = 0 ∧ s.regs.curb = 0) && s.stream.wf &&
    decide (s.stream.len ≤ s.params.streamCapacity) && decide s.params.fits &&
    decide (s.regs.bstate ≠ .bound →
      s.regs.boff = 0 ∧ s.regs.sidx = 0 ∧ s.regs.curb = 0 ∧ s.regs.val = 0 ∧ s.regs.empty = true) &&
    decide (s.regs.bstate = .bound →
      s.regs.p % s.regs.w = 0 ∧ s.regs.p ≤ 8 * s.stream.len ∧ (s.regs.empty = true ↔ s.stream.len = 0) ∧
        s.regs.curb = s.stream.readOrZero s.regs.boff ∧ s.regs.val.toNat = s.stream.seg s.regs.p s.regs.w)

/-- A state that passes the check is good. -/
theorem Inv.of_check {s : State} (h : invCheck s = true) : Inv s := by
  simp only [invCheck, Bool.and_eq_true, decide_eq_true_eq] at h
  obtain ⟨⟨⟨⟨⟨⟨⟨⟨h1, h2⟩, h3⟩, h4⟩, h5⟩, h6⟩, h7⟩, h8⟩, h9⟩ := h
  exact ⟨h1, h2, h3, h4, h5, h6, h7, h8, fun hb =>
    ⟨(h9 hb).1, (h9 hb).2.1, (h9 hb).2.2.1, (h9 hb).2.2.2.1, (h9 hb).2.2.2.2⟩⟩

theorem Regs.s_le (r : Regs) : r.s ≤ 7 := by
  have := r.sidx.isLt
  unfold Regs.s
  omega

theorem Regs.p_eq (r : Regs) : r.p = 8 * r.boff + r.s := rfl

end Sys2Proof.Machine
end

