-- ==== Sys2Proof/Tests/Slice0.lean ====
section
/-!
SUPPORT. Tests on single steps, with the expected results of spec/95_test_vectors.md (its vector named in each
comment) or worked out by hand from the rule named, and a witness for the hypotheses of every statement.
-/

namespace Sys2Proof.Tests

open Sys2Proof.Machine

/-! Decoding: words written out bit by bit from the formats of R61 and the opcodes of R65. -/

/-- `0001` `0000` `0000` `1001`: INIT with WREQ 9. -/
theorem test_decode_init : decode 0b0001000000001001#16 = .ok (.init 9) := by decide

/-- `0010` and twelve zeros: GET. -/
theorem test_decode_get : decode 0b0010000000000000#16 = .ok .get := by decide

/-- `0011` and twelve zeros: GETS. -/
theorem test_decode_gets : decode 0b0011000000000000#16 = .ok .gets := by decide

/-- `0100` `0000` `10000001`: SET with VAL8 129. -/
theorem test_decode_set : decode 0b0100000010000001#16 = .ok (.set 129) := by decide

/-- `0101` `0000` `00001000`: SETS with LEN 8. -/
theorem test_decode_sets : decode 0b0101000000001000#16 = .ok (.sets 8) := by decide

/-- `0110` and twelve zeros: MVL. -/
theorem test_decode_mvl : decode 0b0110000000000000#16 = .ok .mvl := by decide

/-- `0111` and twelve zeros: MVR. -/
theorem test_decode_mvr : decode 0b0111000000000000#16 = .ok .mvr := by decide

/-- `1000` `0000000` `1` `0011`: MASK with ZL 1 and ZC 3 (R69, 0x8013). -/
theorem test_decode_mask_left : decode 0b1000000000010011#16 = .ok (.mask true 3) := by decide

/-- `1000` `0000000` `0` `1111`: MASK with ZL 0 and ZC 15. -/
theorem test_decode_mask_right : decode 0b1000000000001111#16 = .ok (.mask false 15) := by decide

/-- PR-ILL0, PR-ILL9 and PR-ILLF: the unknown opcodes (R66). -/
theorem test_decode_unknown : decode 0x0000 = .error .unknownOpcode ∧
    decode 0x9000 = .error .unknownOpcode ∧ decode 0xF123 = .error .unknownOpcode := by decide

/-- IN-RSV, GT-RSV, ST-RSV, MR-RSV and MK-RSV: one reserved bit of each format (R66). -/
theorem test_decode_reserved : decode 0x1013 = .error .reservedBit ∧ decode 0x2001 = .error .reservedBit ∧
    decode 0x4105 = .error .reservedBit ∧ decode 0x7800 = .error .reservedBit ∧
    decode 0x8020 = .error .reservedBit := by decide

/-- The encoder writes the words of R69. -/
theorem test_encode_words : encode (.init 3) = 0x1003 ∧ encode (.set 5) = 0x4005 ∧ encode (.sets 3) = 0x5003 ∧
    encode (.mask true 3) = 0x8013 ∧ encode (.mask false 3) = 0x8003 := by decide

/-! Well-formedness: each check refuses an ill-formed term (R62). -/

theorem test_wellFormed_init : (Instr.init 15).wellFormed = true ∧ (Instr.init 16).wellFormed = false := by decide

theorem test_wellFormed_set : (Instr.set 255).wellFormed = true ∧ (Instr.set 256).wellFormed = false := by decide

theorem test_wellFormed_sets : (Instr.sets 255).wellFormed = true ∧ (Instr.sets 256).wellFormed = false := by decide

theorem test_wellFormed_mask : (Instr.mask true 15).wellFormed = true ∧ (Instr.mask true 16).wellFormed = false := by
  decide

/-! Small states. -/

/-- A state with capacity `cap`, the registers and stream shown, and nothing at its ports. -/
def mk (cap : Nat) (b : BState) (w : BitVec 4) (boff : Nat) (sidx : BitVec 3) (curb val : Byte) (e : Bool)
    (m : List Byte) : State :=
  { params := { streamCapacity := cap, offsetW := 8 }
    regs := { bstate := b, width := w, boff := boff, sidx := sidx, curb := curb, val := val, empty := e }
    stream := Memory.ofBytes m
    input := { cstr := 0, openOk := true }
    inbox := []
    resp := none
    accesses := []
    draws := 0 }

/-- The same state with a string operand at the port. -/
def withStr (str : StrBus) (s : State) : State := { s with input := { s.input with cstr := str } }

/-- The same state whose next open fails. -/
def openFails (s : State) : State := { s with input := { s.input with openOk := false } }

/-- The same state with one input from the host. -/
def withInput (x : HostInput) (s : State) : State := { s with inbox := [x] }

/-- The command `word` with no string and an open that would succeed. -/
def cmd (word : CmdWord) : Command := { word := word, input := { cstr := 0, openOk := true } }

/-- Reset registers over a stream. -/
def unbound (m : List Byte) : State := mk 4 .unbound 8 0 0 0x00 0x00 true m

/-- Width 3 at segment 0 of `[0xA0]`. -/
def w3 : State := mk 4 .bound 3 0 0 0xA0 0x05 false [0xA0]

/-- Width 3, bound to an empty stream. -/
def w3empty : State := mk 4 .bound 3 0 0 0x00 0x00 true []

/-- Width 5 at the straddling segment 1 of `[0xFF, 0xFF]`. -/
def w5straddle : State := mk 4 .bound 5 0 5 0xFF 0x1F false [0xFF, 0xFF]

/-- Width 5 at the straddling segment 1 of `[0xFF]`, whose second byte does not exist. -/
def w5append : State := mk 4 .bound 5 0 5 0xFF 0x1C false [0xFF]

/-- Width 8 at the phantom byte of `[0xFF]`, with capacity `cap`. -/
def w8phantom (cap : Nat) : State := mk cap .bound 8 1 0 0x00 0x00 false [0xFF]

/-- What a test looks at: registers, stream, response and accesses. -/
def seen (o : Host.Outcome State Fault Refusal) : Option (Regs × Memory × Option Response × List Access) :=
  match o with
  | .next t => some (t.regs, t.stream, t.resp, t.accesses)
  | .fault _ => none
  | .refused _ => none

/-- The fault an outcome is, if it is one. -/
def faultOf (o : Host.Outcome State Fault Refusal) : Option Fault :=
  match o with
  | .fault f => some f
  | .next _ => none
  | .refused _ => none

/-! One step of each command. -/

/-- IN-A0. -/
theorem test_init_reads_byte_0 :
    seen (exec (.init 3) (unbound [0xA0])) =
      some ((mk 4 .bound 3 0 0 0xA0 0x05 false [0xA0]).regs, [(0, 0xA0)], some (okResponse 0 0 0),
        [.openStream, .read 0]) := by decide

/-- IN-FAIL: the request 4 is kept, the stream untouched. -/
theorem test_init_open_fails :
    seen (exec (.init 4) (openFails (mk 4 .failed 3 0 0 0 0 true [0xA0]))) =
      some ((mk 4 .failed 4 0 0 0 0 true []).regs, [(0, 0xA0)], some (errResponse .streamOpenError),
        [.openStream]) := by decide

/-- GT-1. -/
theorem test_get : seen (exec .get w3) = some (w3.regs, [(0, 0xA0)], some (okResponse 0x05 0 0), []) := by decide

/-- GT-UNB. -/
theorem test_get_unbound : seen (exec .get (unbound [])) =
    some (Regs.reset, [], some { ok := false, err := 4, rdata := 0, rlen := 0, rstr := 0 }, []) := by decide

/-- GS-1: the string "101". -/
theorem test_gets : seen (exec .gets w3) =
    some (w3.regs, [(0, 0xA0)], some (okResponse 0 3 0x0000000000313031), []) := by decide

/-- GS-W8: all eight slots. -/
theorem test_gets_width_8 : seen (exec .gets (mk 4 .bound 8 0 0 0x81 0x81 false [0x81])) =
    some ((mk 4 .bound 8 0 0 0x81 0x81 false []).regs, [(0, 0x81)],
      some (okResponse 0 8 0x3130303030303031), []) := by decide

/-- ST-STR5: bits 0 to 4 of byte 0 and 2 to 7 of byte 1 stay. -/
theorem test_set_straddle : seen (exec (.set 0) w5straddle) =
    some ((mk 4 .bound 5 0 5 0xF8 0x00 false []).regs, [(0, 0xF8), (1, 0x3F)], some (okResponse 0 0 0),
      [.read 1, .write 0 0xF8, .write 1 0x3F]) := by decide

/-- FT-FULL: an append beyond a capacity of 1. -/
theorem test_set_stream_full : faultOf (exec (.set 0x3C) (w8phantom 1)) = some .streamFull := by decide

/-- SS-EXTRA: the slots from LEN on are ignored. -/
theorem test_sets_extra_slots : seen (exec (.sets 3) (withStr 0x4200000041313130 w3)) =
    some ((mk 4 .bound 3 0 0 0x60 0x03 false []).regs, [(0, 0x60)], some (okResponse 0 0 0),
      [.write 0 0x60]) := by decide

/-- SS-CHR: a character other than '0' and '1'. -/
theorem test_sets_bad_character : seen (exec (.sets 3) (withStr 0x0000000000313231 w3)) =
    some (w3.regs, [(0, 0xA0)], some (errResponse .invalidSegmentValue), []) := by decide

/-- ML-CROSS3. -/
theorem test_mvl_crosses : seen (exec .mvl (mk 4 .bound 3 1 1 0x80 0x00 false [0xA3, 0x80])) =
    some ((mk 4 .bound 3 0 6 0xA3 0x07 false []).regs, [(0, 0xA3), (1, 0x80)], some (okResponse 0 0 0),
      [.read 0]) := by decide

/-- ML-IN: no stream access. -/
theorem test_mvl_within : seen (exec .mvl (mk 4 .bound 3 0 3 0xA0 0x00 false [0xA0])) =
    some (w3.regs, [(0, 0xA0)], some (okResponse 0 0 0), []) := by decide

/-- MR-D5: case D of R101. -/
theorem test_mvr_case_d : seen (exec .mvr (mk 8 .bound 5 1 7 0x34 0x05 false [0x12, 0x34, 0x56, 0xF8])) =
    some ((mk 8 .bound 5 2 4 0x56 0x0D false []).regs, Memory.ofBytes [0x12, 0x34, 0x56, 0xF8],
      some (okResponse 0 0 0), [.read 2, .read 2, .read 3]) := by decide

/-- MR-Bapp: onto an append segment; the phantom bit is 0. -/
theorem test_mvr_append : seen (exec .mvr (mk 4 .bound 3 0 3 0xA3 0x00 false [0xA3])) =
    some ((mk 4 .bound 3 0 6 0xA3 0x06 false []).regs, [(0, 0xA3)], some (okResponse 0 0 0),
      [.read 0, .read 1]) := by decide

/-- MK-LT3. -/
theorem test_mask_left : seen (exec (.mask true 3) (unbound [])) =
    some (Regs.reset, [], some (okResponse 0x1F 0 0), []) := by decide

/-- MK-RT5. -/
theorem test_mask_right : seen (exec (.mask false 5) (unbound [])) =
    some (Regs.reset, [], some (okResponse 0xE0 0 0), []) := by decide

/-- R36: the status outputs show the registers, BSTATE as its 2-bit code and EMPTY as a bit. -/
theorem test_status : w3.status =
    { bstate := 1, width := 3, boff := 0, sidx := 0, curb := 0xA0, val := 0x05, empty := 0 } := by decide

/-! Inputs. -/

/-- PR-ILL9: the error of an illegal word comes before the binding check. -/
theorem test_step_illegal : seen (step (withInput (.command (cmd 0x9000)) (unbound []))) =
    some (Regs.reset, [], some { ok := false, err := 5, rdata := 0, rlen := 0, rstr := 0 }, []) := by decide

/-- R122: the first write of a straddling SET reached the stream, the registers are reset. -/
theorem test_step_reset_during : seen (step (withInput (.resetDuring (cmd 0x4000) 1) w5straddle)) =
    some (Regs.reset, [(0, 0xF8), (1, 0xFF)], none, [.write 0 0xF8]) := by decide

/-- The first instruction after reset is the one `withFetchWord` places: INIT 5 on an empty stream (IN-EMPTY). -/
theorem test_step_first_command : (seen (step (State.reset.withFetchWord 16 0x1005))).map (fun x => x.1) =
    some { bstate := .bound, width := 5, boff := 0, sidx := 0, curb := 0, val := 0, empty := true } := by decide

/-! The host's side (R64, R69). -/

/-- R69's example: SETS "101". -/
theorem test_assemble_sets : assembleCommand ['S', 'E', 'T', 'S', ' ', '"', '1', '0', '1', '"'] =
    some (0x5003, 0x0000000000313031) := by decide

/-- R69's example: MASK L, 3, after a comment line. -/
theorem test_assemble_mask :
    assemble [[';', ' ', 'x'], ['M', 'A', 'S', 'K', ' ', 'L', ',', ' ', '3', ' ', ';']] = some [(0x8013, 0)] := by
  decide

/-- R69: a value in hex and one in binary; 16 is no operand of INIT. -/
theorem test_assemble_numbers : assembleCommand ['S', 'E', 'T', ' ', '0', 'x', 'F', 'f'] = some (0x40FF, 0) ∧
    assembleCommand ['S', 'E', 'T', ' ', '0', 'b', '1', '0', '1'] = some (0x4005, 0) ∧
    assembleCommand ['I', 'N', 'I', 'T', ' ', '1', '6'] = none := by decide

/-! Witnesses: for each statement with hypotheses, states and operands that meet all of them, at the boundaries of
its clauses. -/

theorem good_w3 : Inv w3 := Inv.of_check (by decide)

theorem good_w3empty : Inv w3empty := Inv.of_check (by decide)

theorem good_w5straddle : Inv w5straddle := Inv.of_check (by decide)

theorem good_w5append : Inv w5append := Inv.of_check (by decide)

theorem good_w8phantom : Inv (w8phantom 2) ∧ Inv (w8phantom 1) :=
  ⟨Inv.of_check (by decide), Inv.of_check (by decide)⟩

theorem witness_DecodeAfterEncode : (Instr.set 255).wellFormed = true ∧ (Instr.init 15).wellFormed = true := by
  decide

theorem witness_EncodeAfterDecode : decode 0x801F = .ok (.mask true 15) := by decide

/-- Illegal words just past each range of R66, and one just inside. -/
theorem witness_IllegalWordsAnswerIllegalCommand :
    (withInput (.command (cmd 0x1010)) w3).inbox = [.command (cmd 0x1010)] ∧
    decode 0x1010 = .error .reservedBit ∧ decode 0x8020 = .error .reservedBit ∧
    decode 0x4100 = .error .reservedBit ∧ decode 0x9000 = .error .unknownOpcode ∧
    decode 0x801F = .ok (.mask true 15) := by decide

theorem witness_StepRunsTheDecodedCommand :
    (withInput (.command (cmd 0x1003)) w3).inbox = [.command (cmd 0x1003)] ∧
    decode (cmd 0x1003).word = .ok (.init 3) ∧ decode (BitVec.ofNat 16 (0x7000 % 2 ^ 16)) = .ok .mvr := by decide

theorem witness_ResetSetsTheListedValues : (withInput .reset w3).inbox = [.reset] := by decide

theorem witness_IdleCoreKeepsItsState : w3.inbox = [] := by decide

/-- A word that does not decode. -/
theorem witness_ResetDuringCommandLeavesAPrefix_illegal :
    Inv (withInput (.resetDuring (cmd 0x9000) 1) w3) ∧
    (withInput (.resetDuring (cmd 0x9000) 1) w3).inbox = [.resetDuring (cmd 0x9000) 1] ∧
    decode (cmd 0x9000).word = .error .unknownOpcode :=
  ⟨Inv.of_check (by decide), by decide⟩

/-- SETS "00000" across two bytes with both writes made, the second at the last byte of the capacity. -/
theorem witness_ResetDuringCommandLeavesAPrefix_straddle :
    let c : Command := { word := 0x5005, input := { cstr := 0x3030303030, openOk := true } }
    let s := withInput (.resetDuring c 2) (mk 2 .bound 5 0 5 0xFF 0x1C false [0xFF])
    Inv s ∧ decode c.word = .ok (.sets s.regs.w) ∧ s.regs.bstate = .bound ∧ 0 < 2 ^ s.regs.w ∧
      s.regs.empty = false ∧ 8 < s.regs.s + s.regs.w ∧ s.regs.boff + 1 < s.params.streamCapacity ∧
      ∀ j : Nat, j < s.regs.w →
        strChar c.input.cstr j = (if Nat.testBit 0 (s.regs.w - 1 - j) then 0x31#8 else 0x30#8) :=
  ⟨Inv.of_check (by decide), by decide⟩

/-- SET within one byte, at the last byte of the capacity; on an empty stream; and beyond the capacity. -/
theorem witness_ResetDuringCommandLeavesAPrefix_single :
    (Inv (withInput (.resetDuring (cmd 0x403C) 1) (w8phantom 2)) ∧ decode (cmd 0x403C).word = .ok (.set 0x3C) ∧
      (w8phantom 2).regs.s + (w8phantom 2).regs.w ≤ 8 ∧ 0x3C < 2 ^ (w8phantom 2).regs.w ∧
      (w8phantom 2).regs.boff < (w8phantom 2).params.streamCapacity) ∧
    (Inv (withInput (.resetDuring (cmd 0x4007) 1) w3empty) ∧ decode (cmd 0x4007).word = .ok (.set 7) ∧
      w3empty.regs.empty = true ∧ 7 < 2 ^ w3empty.regs.w ∧ 0 < w3empty.params.streamCapacity) ∧
    Inv (withInput (.resetDuring (cmd 0x403C) 1) (w8phantom 1)) ∧
    (w8phantom 1).params.streamCapacity ≤ (w8phantom 1).regs.boff :=
  ⟨⟨Inv.of_check (by decide), by decide⟩, ⟨Inv.of_check (by decide), by decide⟩, Inv.of_check (by decide), by decide⟩

/-- No writes: the first rejected value, a rejected length and character, a cursor not bound, and MVR. -/
theorem witness_ResetDuringCommandLeavesAPrefix_none :
    Inv (withInput (.resetDuring (cmd 0x4008) 1) w3) ∧ decode (cmd 0x4008).word = .ok (.set 8) ∧
    2 ^ w3.regs.w ≤ 8 ∧ decode (cmd 0x5004).word = .ok (.sets 4) ∧ 4 ≠ w3.regs.w ∧ 2 < w3.regs.w ∧
    strChar (cmd 0x5003).input.cstr 2 ≠ 0x30#8 ∧ strChar (cmd 0x5003).input.cstr 2 ≠ 0x31#8 ∧
    Inv (withInput (.resetDuring (cmd 0x4001) 1) (unbound [])) ∧ (unbound []).regs.bstate ≠ .bound ∧
    decode (cmd 0x7000).word = .ok .mvr ∧ (∀ v : Nat, Instr.mvr ≠ .set v) ∧ ∀ n : Nat, Instr.mvr ≠ .sets n :=
  ⟨Inv.of_check (by decide), by decide, by decide, by decide, by decide, by decide, by decide, by decide,
    Inv.of_check (by decide), by decide, by decide, (fun _ h => by cases h), (fun _ h => by cases h)⟩

/-- The three clauses, at and just past the capacity of 4. -/
theorem witness_LoadStreamReplacesTheContents :
    (withInput (.loadStream [1]) w3).inbox = [.loadStream [1]] ∧ w3.regs.bstate = .bound ∧
    (unbound []).regs.bstate ≠ .bound ∧ (unbound []).params.streamCapacity < [1, 2, 3, 4, (5 : Byte)].length ∧
    [1, 2, 3, (4 : Byte)].length ≤ (unbound []).params.streamCapacity := by decide

theorem witness_StepKeepsParametersAndTakesOneInput :
    ∃ t, step (withInput (.command (cmd 0x7000)) w3) = .next t := ⟨_, rfl⟩

/-- The last width that is kept and the first that is clamped, on an empty stream and on one of a byte. -/
theorem witness_InitBindsTheStream :
    (unbound []).input.openOk = true ∧ (unbound []).stream.wf = true ∧ (unbound []).stream.len = 0 ∧
    (unbound [0xA0]).stream.wf = true ∧ 0 < (unbound [0xA0]).stream.len ∧
    (8 : Nat) = (if 1 ≤ 8 ∧ 8 ≤ 8 then 8 else 8) ∧ (8 : Nat) = (if 1 ≤ 0 ∧ 0 ≤ 8 then 0 else 8) := by decide

theorem witness_InitAnswersFailedOpen : (openFails (unbound [])).input.openOk = false := by decide

theorem witness_GetAnswersVal : w3empty.regs.bstate = .bound ∧ Inv w3empty ∧ w3empty.regs.empty = true :=
  ⟨by decide, good_w3empty, by decide⟩

/-- Width 3 and width 8; the empty clause on a good state. -/
theorem witness_GetsAnswersTheDigitsOfVal :
    (w3empty.regs.bstate = .bound ∧ 1 ≤ w3empty.regs.w ∧ w3empty.regs.w ≤ 8 ∧ Inv w3empty ∧
      w3empty.regs.empty = true) ∧
    (w8phantom 2).regs.bstate = .bound ∧ 1 ≤ (w8phantom 2).regs.w ∧ (w8phantom 2).regs.w ≤ 8 :=
  ⟨⟨by decide, by decide, by decide, good_w3empty, by decide⟩, by decide, by decide, by decide⟩

/-- The last count with a pattern. -/
theorem witness_MaskAnswersClusteredZeros : 8 ≤ 8 := by decide

/-- The first count with a draw. -/
theorem witness_MaskDrawsAByteBeyondEight : 8 < 9 := by decide

theorem witness_MaskGeneratorFacts : 8 ≤ 8 := by decide

theorem witness_SetRejectsAWideValue : w3.regs.bstate = .bound ∧ 2 ^ w3.regs.w ≤ 8 := by decide

theorem witness_SetOnAnEmptyStream :
    Inv w3empty ∧ w3empty.regs.bstate = .bound ∧ w3empty.regs.empty = true ∧ 7 < 2 ^ w3empty.regs.w ∧
    0 < w3empty.params.streamCapacity :=
  ⟨good_w3empty, by decide⟩

/-- The phantom byte of a stream with room for one more: the segment ends with its byte. -/
theorem witness_SetWithinOneByte :
    Inv (w8phantom 2) ∧ (w8phantom 2).regs.bstate = .bound ∧ (w8phantom 2).regs.empty = false ∧
    (w8phantom 2).regs.s + (w8phantom 2).regs.w ≤ 8 ∧ 255 < 2 ^ (w8phantom 2).regs.w ∧
    (w8phantom 2).regs.boff < (w8phantom 2).params.streamCapacity :=
  ⟨good_w8phantom.1, by decide⟩

/-- The second byte does not exist yet. -/
theorem witness_SetAcrossTwoBytes :
    Inv w5append ∧ w5append.regs.bstate = .bound ∧ w5append.regs.empty = false ∧
    8 < w5append.regs.s + w5append.regs.w ∧ 31 < 2 ^ w5append.regs.w ∧
    w5append.regs.boff + 1 < w5append.params.streamCapacity :=
  ⟨good_w5append, by decide⟩

/-- With and without room for the appended byte. -/
theorem witness_SetFaultsExactlyBeyondTheCapacity :
    Inv (w8phantom 1) ∧ (w8phantom 1).regs.bstate = .bound ∧ 255 < 2 ^ (w8phantom 1).regs.w ∧
    (w8phantom 1).params.streamCapacity ≤
      endbyte (w8phantom 1).regs.boff (w8phantom 1).regs.s (w8phantom 1).regs.w ∧
    Inv (w8phantom 2) ∧
    endbyte (w8phantom 2).regs.boff (w8phantom 2).regs.s (w8phantom 2).regs.w <
      (w8phantom 2).params.streamCapacity :=
  ⟨good_w8phantom.2, by decide, by decide, by decide, good_w8phantom.1, by decide⟩

/-- "101" at width 3; a wrong length; a wrong character. -/
theorem witness_SetsDelegatesToSet :
    w3.regs.bstate = .bound ∧ 5 < 2 ^ w3.regs.w ∧
    (∀ k : Nat, k < w3.regs.w →
      strChar (withStr 0x313031 w3).input.cstr k = (if Nat.testBit 5 (w3.regs.w - 1 - k) then 0x31#8 else 0x30#8)) ∧
    4 ≠ w3.regs.w ∧ 2 < w3.regs.w ∧ strChar 0x2F3031 2 ≠ 0x30#8 ∧ strChar 0x2F3031 2 ≠ 0x31#8 := by decide

theorem witness_SegmentWriteIsExact :
    Inv (withStr 0x313031 w3) ∧ (withStr 0x313031 w3).regs.bstate = .bound ∧
    5 < 2 ^ (withStr 0x313031 w3).regs.w ∧
    endbyte (withStr 0x313031 w3).regs.boff (withStr 0x313031 w3).regs.s (withStr 0x313031 w3).regs.w <
      (withStr 0x313031 w3).params.streamCapacity ∧
    (∀ k : Nat, k < (withStr 0x313031 w3).regs.w →
      strChar (withStr 0x313031 w3).input.cstr k =
        (if Nat.testBit 5 ((withStr 0x313031 w3).regs.w - 1 - k) then 0x31#8 else 0x30#8)) :=
  ⟨Inv.of_check (by decide), by decide⟩

theorem witness_SegmentWriteFrame : ∃ t, exec (.set 0) w5straddle = .next t := ⟨_, rfl⟩

/-- At the start, one segment from it, and on an empty stream. -/
theorem witness_MvlMovesLeftOrFails :
    Inv w3 ∧ w3.regs.bstate = .bound ∧ w3.regs.boff = 0 ∧ w3.regs.sidx = 0 ∧ w3empty.regs.empty = true ∧
    Inv w5straddle ∧ w5straddle.regs.bstate = .bound ∧ w5straddle.regs.empty = false ∧
    ¬ (w5straddle.regs.boff = 0 ∧ w5straddle.regs.sidx = 0) :=
  ⟨good_w3, by decide, by decide, by decide, by decide, good_w5straddle, by decide, by decide, by decide⟩

/-- On an empty stream; on the last segment inside the stream; on the first that is not. -/
theorem witness_MvrMovesRightOrFails :
    Inv w3empty ∧ w3empty.regs.bstate = .bound ∧ w3empty.regs.empty = true ∧
    (Inv (mk 4 .bound 8 0 0 0xFF 0xFF false [0xFF]) ∧
      (mk 4 .bound 8 0 0 0xFF 0xFF false [0xFF]).regs.p + (mk 4 .bound 8 0 0 0xFF 0xFF false [0xFF]).regs.w ≤
        8 * (mk 4 .bound 8 0 0 0xFF 0xFF false [0xFF]).stream.len) ∧
    Inv w5append ∧ w5append.regs.empty = false ∧
    8 * w5append.stream.len < w5append.regs.p + w5append.regs.w :=
  ⟨good_w3empty, by decide, by decide, ⟨Inv.of_check (by decide), by decide⟩, good_w5append, by decide, by decide⟩

/-- One state for each case of R101. -/
theorem witness_MvrFourCases :
    (w3.regs.bstate = .bound ∧ w3.regs.empty = false ∧ 1 ≤ w3.regs.w ∧ w3.regs.w ≤ 8 ∧
      w3.stream.byteAt (endbyte w3.regs.boff w3.regs.s w3.regs.w) = some 0xA0 ∧
      w3.regs.s + w3.regs.w + w3.regs.w ≤ 8) ∧
    (let s := mk 4 .bound 7 0 0 0x12 0x09 false [0x12, 0x34]
     s.stream.byteAt (endbyte s.regs.boff s.regs.s s.regs.w) = some 0x12 ∧ s.regs.s + s.regs.w < 8 ∧
      8 < s.regs.s + s.regs.w + s.regs.w) ∧
    (let s := mk 4 .bound 4 0 4 0xAB 0x0B false [0xAB]
     s.stream.byteAt (endbyte s.regs.boff s.regs.s s.regs.w) = some 0xAB ∧ 8 ≤ s.regs.s + s.regs.w ∧
      s.regs.s + s.regs.w - 8 + s.regs.w ≤ 8) ∧
    (let s := mk 4 .bound 6 0 6 0x12 0x23 false [0x12, 0x34]
     s.stream.byteAt (endbyte s.regs.boff s.regs.s s.regs.w) = some 0x34 ∧ 8 ≤ s.regs.s + s.regs.w ∧
      8 < s.regs.s + s.regs.w - 8 + s.regs.w) := by decide

/-- The excluded state; a missing byte; and a good state in the crossing branch. -/
theorem witness_MvlFaultsOnlyInExcludedStates :
    exec .mvl (mk 4 .bound 3 0 2 0xA0 0 false [0xA0]) = .fault .invariantBroken ∧
    exec .mvl (mk 4 .bound 3 2 0 0xA0 0 false [0xA0]) = .fault .invariantBroken ∧
    Inv (w8phantom 2) ∧ (w8phantom 2).regs.s < (w8phantom 2).regs.w ∧ 0 < (w8phantom 2).regs.boff :=
  ⟨rfl, rfl, good_w8phantom.1, by decide, by decide⟩

theorem witness_UnusableCursorRefuses :
    (unbound []).regs.bstate = .unbound ∧ (mk 4 .failed 3 0 0 0 0 true []).regs.bstate = .failed ∧
    (unbound []).input.openOk = true ∧ (unbound []).stream.wf = true := by decide

theorem witness_ErrorsChangeNothing :
    ∃ t r, exec (.set 8) w3 = .next t ∧ t.resp = some r ∧ r.ok = false := ⟨_, _, rfl, rfl, rfl⟩

theorem witness_ErrorsChangeNothing_init :
    ∃ t r, exec (.init 4) (openFails w3) = .next t ∧ t.resp = some r ∧ r.ok = false := ⟨_, _, rfl, rfl, rfl⟩

theorem witness_AnsweredCommandLeavesOneResponse : ∃ t, exec .gets w3 = .next t := ⟨_, rfl⟩

theorem witness_StepKeepsTheInvariant :
    Inv (withInput (.command (cmd 0x7000)) w3) ∧ ∃ t, step (withInput (.command (cmd 0x7000)) w3) = .next t :=
  ⟨Inv.of_check (by decide), _, rfl⟩

theorem witness_FaultsOnlyWhenTheStreamIsFull :
    Inv (withInput (.command (cmd 0x403C)) (w8phantom 1)) ∧
    step (withInput (.command (cmd 0x403C)) (w8phantom 1)) = .fault .streamFull :=
  ⟨Inv.of_check (by decide), rfl⟩

theorem witness_InvariantBoundsThePosition :
    Inv (w8phantom 1) ∧ (w8phantom 1).regs.bstate = .bound ∧
    (w8phantom 1).regs.boff = (w8phantom 1).stream.len ∧ (w8phantom 1).regs.empty = false :=
  ⟨good_w8phantom.2, by decide⟩

theorem witness_NavigationRoundTrip :
    Inv w3 ∧ w3.regs.bstate = .bound ∧
    (∃ t, exec .mvr w3 = .next t ∧ t.resp = some (okResponse 0 0 0)) ∧
    Inv w5append ∧ ∃ t, exec .mvl w5append = .next t ∧ t.resp = some (okResponse 0 0 0) :=
  ⟨good_w3, by decide, ⟨_, rfl, rfl⟩, good_w5append, _, rfl, rfl⟩

theorem witness_RepeatedMvrSucceedsFloorTimes :
    let s : State := { w3 with inbox := List.replicate (8 * w3.stream.len / w3.regs.w + 1) (.command (cmd 0x7000)) }
    Inv s ∧ s.regs.bstate = .bound ∧ s.regs.p = 0 ∧
      s.inbox = List.replicate (8 * s.stream.len / s.regs.w + 1) (.command (cmd 0x7000)) :=
  ⟨Inv.of_check (by decide), by decide, by decide, rfl⟩

theorem witness_BoundStreamNeverShrinks :
    w3empty.regs.bstate = .bound ∧ ∃ t, step (withInput (.command (cmd 0x4005)) w3empty) = .next t :=
  ⟨by decide, _, rfl⟩

theorem witness_OnlySegmentWritesTouchTheStream :
    (∀ v : Nat, Instr.mvr ≠ .set v) ∧ (∀ n : Nat, Instr.mvr ≠ .sets n) ∧ ∃ t, exec .mvr w3 = .next t :=
  ⟨(fun _ h => by cases h), (fun _ h => by cases h), _, rfl⟩

theorem witness_AccessesOfACommandAreBounded : ∃ t, exec (.set 31) w5append = .next t := ⟨_, rfl⟩

theorem witness_SegmentIsExtracted : 1 ≤ 8 ∧ 8 ≤ 8 ∧ 0 % 8 + 8 ≤ 8 := by decide

/-- A segment that ends its byte, and one that straddles by a bit. -/
theorem witness_InserterLaws :
    7 ≤ 7 ∧ 1 ≤ 1 ∧ 1 ≤ 8 ∧ (1 : Byte).toNat < 2 ^ 1 ∧ 7 + 1 ≤ 8 ∧ (3 : Byte).toNat < 2 ^ 2 ∧ 8 < 7 + 2 := by decide

theorem witness_PositionDecoderSteps : 7 ≤ 7 ∧ 1 ≤ 8 ∧ 8 ≤ 8 ∧ 8 ≤ pos 1 0 := by decide

theorem witness_GetsThenSetsKeepsTheSegment :
    Inv w3 ∧ w3.regs.bstate = .bound ∧
    endbyte w3.regs.boff w3.regs.s w3.regs.w < w3.params.streamCapacity ∧
    w3.regs.p + w3.regs.w ≤ 8 * w3.stream.len :=
  ⟨good_w3, by decide⟩

theorem witness_RegistersChangeOnlyByTheirCommands :
    (∃ t, exec (.set 5) w3empty = .next t ∧ t.regs.empty ≠ w3empty.regs.empty) ∧
    ∀ w : Nat, Instr.set 5 ≠ .init w :=
  ⟨⟨_, rfl, by decide⟩, (fun _ h => by cases h)⟩

theorem witness_StringOperandIsReadOnlyBySets :
    (∀ n : Nat, Instr.get ≠ .sets n) ∧
    ∀ k : Nat, k < 3 → strChar 0x4200000041313130 k = strChar (withStr 0x313130 w3).input.cstr k :=
  ⟨(fun _ h => by cases h), by decide⟩

/-- The longest string that is passed on as it is, and the first that is not. -/
theorem witness_HostMappingLosesNothing :
    (List.replicate 255 (0x30 : Byte)).length ≤ 255 ∧ 255 < (List.replicate 256 (0x30 : Byte)).length ∧
    Inv w3 ∧ w3.regs.bstate = .bound :=
  ⟨by rw [List.length_replicate], by rw [List.length_replicate]; decide, good_w3, by decide⟩

theorem witness_AssembledWordsAreLegal : assembleCommand ['M', 'V', 'R'] = some (0x7000, 0) := by decide

end Sys2Proof.Tests
end

section
/-!
PROOFS of 00_scope.md. No step touches the parameters (R7, log 3), and only `takeNext` takes from the host's queue (log 5).
-/

namespace Sys2Proof.Machine

/-- `t` has the parameters and the host's queue of `s`. -/
def SameParamsAndInbox (s t : State) : Prop := t.params = s.params ∧ t.inbox = s.inbox

/-- Whatever state `o` answers has the parameters and the host's queue of `s`. -/
def KeepsParamsAndInbox (s : State) (o : Host.Outcome State Fault Refusal) : Prop :=
  ∀ t : State, o = .next t → SameParamsAndInbox s t

/-! The shared operations. -/

theorem SameParamsAndInbox.rfl {s : State} : SameParamsAndInbox s s := ⟨Eq.refl _, Eq.refl _⟩

theorem SameParamsAndInbox.trans {s t u : State} (h1 : SameParamsAndInbox s t) (h2 : SameParamsAndInbox t u) :
    SameParamsAndInbox s u := ⟨h2.1.trans h1.1, h2.2.trans h1.2⟩

theorem SameParamsAndInbox.setRegs {s t : State} (h : SameParamsAndInbox s t) (r : Regs) :
    SameParamsAndInbox s (t.setRegs r) := h

theorem sameParamsAndInbox_of_streamOpen {s t : State} {l : Option Nat} (h : streamOpen s = (l, t)) :
    SameParamsAndInbox s t := by
  obtain rfl : s.addAccess .openStream = t := congrArg Prod.snd h
  exact .rfl

theorem sameParamsAndInbox_of_memRead {s t : State} {i : Nat} {b : Option Byte} (h : memRead i s = (b, t)) :
    SameParamsAndInbox s t := by
  obtain rfl : s.addAccess (.read i) = t := congrArg Prod.snd h
  exact .rfl

theorem sameParamsAndInbox_nextCurb (b' : Nat) (s : State) : SameParamsAndInbox s (nextCurb b' s).2 := by
  rw [nextCurb_eq]
  exact .rfl

theorem sameParamsAndInbox_nextLow (b' s' w : Nat) (s : State) : SameParamsAndInbox s (nextLow b' s' w s).2 := by
  rw [nextLow_eq]
  exact .rfl

theorem sameParamsAndInbox_of_memWrites {ws : List (Nat × Byte)} {s t : State} (h : memWrites ws s = .ok t) :
    SameParamsAndInbox s t := by
  rw [memWrites_frame h]
  exact .rfl

theorem keepsParamsAndInbox_next {s t : State} (h : SameParamsAndInbox s t) : KeepsParamsAndInbox s (.next t) := by
  rintro _ ⟨⟩
  exact h

theorem keepsParamsAndInbox_fault (s : State) (f : Fault) : KeepsParamsAndInbox s (.fault f) := nofun

theorem keepsParamsAndInbox_refused (s : State) (r : Refusal) : KeepsParamsAndInbox s (.refused r) := nofun

theorem keepsParamsAndInbox_respond {s t : State} (h : SameParamsAndInbox s t) (d : Byte) (n : BitVec 8)
    (str : StrBus) : KeepsParamsAndInbox s (respond d n str t) := keepsParamsAndInbox_next h

theorem keepsParamsAndInbox_raise {s t : State} (h : SameParamsAndInbox s t) (e : Err) :
    KeepsParamsAndInbox s (raise e t) := keepsParamsAndInbox_next h

theorem writeSegment_keepsParamsAndInbox (v : Byte) (s : State) : KeepsParamsAndInbox s (writeSegment v s) := by
  intro t h
  obtain ⟨s', hw, rfl⟩ := writeSegment_eq_next.1 h
  have hread : SameParamsAndInbox s (if straddles s then s.addAccess (.read (s.regs.boff + 1)) else s) := by
    split <;> exact .rfl
  have hwrites := hread.trans (sameParamsAndInbox_of_memWrites hw)
  exact hwrites.setRegs (segmentRegs v s)

/-! The commands, one by one. -/

theorem execInit_keepsParamsAndInbox (wreq : Nat) (s : State) : KeepsParamsAndInbox s (execInit wreq s) := by
  unfold execInit
  split
  · next ho => exact keepsParamsAndInbox_raise ((sameParamsAndInbox_of_streamOpen ho).setRegs _) _
  · next ho =>
    have hopen := sameParamsAndInbox_of_streamOpen ho
    split
    · exact keepsParamsAndInbox_respond (hopen.setRegs _) _ _ _
    · split
      · exact keepsParamsAndInbox_fault _ _
      · next hr =>
        exact keepsParamsAndInbox_respond ((hopen.trans (sameParamsAndInbox_of_memRead hr)).setRegs _) _ _ _

theorem execGet_keepsParamsAndInbox (s : State) : KeepsParamsAndInbox s (execGet s) := by
  unfold execGet
  split
  · exact keepsParamsAndInbox_raise .rfl _
  · exact keepsParamsAndInbox_respond .rfl _ _ _

theorem execGets_keepsParamsAndInbox (s : State) : KeepsParamsAndInbox s (execGets s) := by
  unfold execGets
  split
  · exact keepsParamsAndInbox_raise .rfl _
  · exact keepsParamsAndInbox_respond .rfl _ _ _

theorem execSet_keepsParamsAndInbox (val8 : Nat) (s : State) : KeepsParamsAndInbox s (execSet val8 s) := by
  unfold execSet
  split
  · exact keepsParamsAndInbox_raise .rfl _
  · split
    · exact keepsParamsAndInbox_raise .rfl _
    · exact writeSegment_keepsParamsAndInbox _ _

theorem execSets_keepsParamsAndInbox (len : Nat) (s : State) : KeepsParamsAndInbox s (execSets len s) := by
  unfold execSets
  split
  · exact keepsParamsAndInbox_raise .rfl _
  · split
    · exact keepsParamsAndInbox_raise .rfl _
    · split
      · exact keepsParamsAndInbox_raise .rfl _
      · exact writeSegment_keepsParamsAndInbox _ _

theorem execMvl_keepsParamsAndInbox (s : State) : KeepsParamsAndInbox s (execMvl s) := by
  unfold execMvl
  split
  · exact keepsParamsAndInbox_raise .rfl _
  · split_ifs
    · exact keepsParamsAndInbox_raise .rfl _
    · exact keepsParamsAndInbox_respond (SameParamsAndInbox.rfl.setRegs _) _ _ _
    · exact keepsParamsAndInbox_fault _ _
    · split
      · exact keepsParamsAndInbox_fault _ _
      · next hr => exact keepsParamsAndInbox_respond ((sameParamsAndInbox_of_memRead hr).setRegs _) _ _ _

theorem execMvr_keepsParamsAndInbox (s : State) : KeepsParamsAndInbox s (execMvr s) := by
  unfold execMvr
  split
  · exact keepsParamsAndInbox_raise .rfl _
  · split
    · exact keepsParamsAndInbox_raise .rfl _
    · split
      · next hr => exact keepsParamsAndInbox_raise (sameParamsAndInbox_of_memRead hr) _
      · next hr =>
        have hprobe := sameParamsAndInbox_of_memRead hr
        exact keepsParamsAndInbox_respond (.setRegs (hprobe.trans
          ((sameParamsAndInbox_nextCurb _ _).trans (sameParamsAndInbox_nextLow _ _ _ _))) _) _ _ _

theorem execMask_keepsParamsAndInbox (zl : Bool) (zc : Nat) (s : State) :
    KeepsParamsAndInbox s (execMask zl zc s) := by
  unfold execMask
  split
  · exact keepsParamsAndInbox_respond .rfl _ _ _
  · exact keepsParamsAndInbox_respond (t := s.nextDraw) .rfl _ _ _

/-- No command touches the parameters or the host's queue. -/
theorem exec_keepsParamsAndInbox (i : Instr) (s : State) : KeepsParamsAndInbox s (exec i s) := by
  cases i with
  | init wreq => exact execInit_keepsParamsAndInbox wreq s
  | get => exact execGet_keepsParamsAndInbox s
  | gets => exact execGets_keepsParamsAndInbox s
  | set val8 => exact execSet_keepsParamsAndInbox val8 s
  | sets len => exact execSets_keepsParamsAndInbox len s
  | mvl => exact execMvl_keepsParamsAndInbox s
  | mvr => exact execMvr_keepsParamsAndInbox s
  | mask zl zc => exact execMask_keepsParamsAndInbox zl zc s

/-! The inputs. -/

theorem runCommand_keepsParamsAndInbox (c : Command) (s : State) : KeepsParamsAndInbox s (runCommand c s) := by
  unfold runCommand
  split
  · exact exec_keepsParamsAndInbox _ (present c s)
  · exact keepsParamsAndInbox_raise (t := present c s) .rfl _

theorem abortCommand_keepsParamsAndInbox (c : Command) (k : Nat) (s : State) :
    KeepsParamsAndInbox s (abortCommand c k s) := by
  unfold abortCommand
  split
  · exact keepsParamsAndInbox_next .rfl
  · split
    · next hw =>
      have hpresent : SameParamsAndInbox s (present c s) := .rfl
      have hwrites := hpresent.trans (sameParamsAndInbox_of_memWrites hw)
      exact keepsParamsAndInbox_next hwrites
    · exact keepsParamsAndInbox_fault _ _

theorem loadStream_keepsParamsAndInbox (bytes : List Byte) (s : State) :
    KeepsParamsAndInbox s (loadStream bytes s) := by
  unfold loadStream
  split_ifs
  · exact keepsParamsAndInbox_refused _ _
  · exact keepsParamsAndInbox_refused _ _
  · exact keepsParamsAndInbox_next .rfl

/-- An input, once taken from the queue, touches neither the parameters nor the inputs still to come. -/
theorem takeInput_keepsParamsAndInbox (x : HostInput) (s : State) : KeepsParamsAndInbox s (takeInput x s) := by
  cases x with
  | command c => exact runCommand_keepsParamsAndInbox c s
  | reset => exact keepsParamsAndInbox_next .rfl
  | resetDuring c k => exact abortCommand_keepsParamsAndInbox c k s
  | loadStream bytes => exact loadStream_keepsParamsAndInbox bytes s

/-- Settles O9: a step is idle, or takes the first input off the queue, and what that input does touches neither
the parameters nor the rest of the queue. -/
theorem stepKeepsParametersAndTakesOneInput : Obligations.StepKeepsParametersAndTakesOneInput := by
  intro s t h
  cases hq : s.inbox with
  | nil =>
    rw [step_idle hq] at h
    cases h
    exact ⟨rfl, hq⟩
  | cons x rest =>
    rw [step_input hq] at h
    exact takeInput_keepsParamsAndInbox x _ t h

end Sys2Proof.Machine
end

section
/-!
PROOFS of 10_state.md, first part: the segment at a position is what the extractor takes from the bytes it lies in (R47),
and what the inserters put there is extracted again (R79). VAL = Seg(p, w) (R31) rests on these in every step.
-/

namespace Sys2Proof.Machine

theorem getLsbD_eq_false_of_lt {v : Byte} {w k : Nat} (hv : v.toNat < 2 ^ w) (hk : w ≤ k) : v.getLsbD k = false :=
  Nat.testBit_lt_two_pow (lt_of_lt_of_le hv (Nat.pow_le_pow_right (by omega) hk))

theorem getLsbD_extract_of_width_le (hi lo : Byte) {s w k : Nat} (hs : s ≤ 7) (hw : w ≤ 8) (hk : w ≤ k) :
    (extract hi lo s w).getLsbD k = false := by
  by_cases h8 : k < 8
  · rw [getLsbD_extract hi lo hs hw h8, decide_eq_false (by omega), Bool.false_and]
  · exact BitVec.getLsbD_of_ge _ _ (by omega)

/-- An extracted field is a value `v` of `w` bits when each of its bits, found in the two bytes, is that of `v`. -/
theorem extract_eq_of_bits {hi lo v : Byte} {s w : Nat} (hs : s ≤ 7) (hw : w ≤ 8) (hv : v.toNat < 2 ^ w)
    (h : ∀ k < w, (if s + w - 1 - k < 8 then hi.getLsbD (7 - (s + w - 1 - k))
      else lo.getLsbD (15 - (s + w - 1 - k))) = v.getLsbD k) :
    extract hi lo s w = v := by
  apply BitVec.eq_of_getLsbD_eq
  intro k h8
  by_cases hk : k < w
  · rw [getLsbD_extract hi lo hs hw h8, decide_eq_true hk, Bool.true_and, h k hk]
  · rw [getLsbD_extract_of_width_le hi lo hs hw (by omega), getLsbD_eq_false_of_lt hv (by omega)]

/-- R79, a segment in one byte: the inserted value is extracted again, whatever the next byte is. -/
theorem extract_insertSingle (b lo : Byte) {v : Byte} {s w : Nat} (hs : s ≤ 7) (hsw : s + w ≤ 8)
    (hv : v.toNat < 2 ^ w) : extract (insertSingle b s w v) lo s w = v := by
  refine extract_eq_of_bits hs (by omega) hv fun k hk => ?_
  rw [if_pos (by omega), getLsbD_insertSingle b v hsw hv (by omega), if_pos (by omega)]
  congr 1; omega

/-- R79, a segment across two bytes. -/
theorem extract_insertHi_insertLo (b n : Byte) {v : Byte} {s w : Nat} (hs : s ≤ 7) (hsw : 8 < s + w) (hw : w ≤ 8)
    (hv : v.toNat < 2 ^ w) : extract (insertHi b s w v) (insertLo n s w v) s w = v := by
  refine extract_eq_of_bits hs hw hv fun k hk => ?_
  by_cases hj : s + w - 1 - k < 8
  · rw [if_pos hj, getLsbD_insertHi b v hs hsw hv hj, if_pos (by omega)]
    congr 1; omega
  · rw [if_neg hj, show 15 - (s + w - 1 - k) = 7 - (s + w - 9 - k) by omega,
      getLsbD_insertLo n v hs hsw hw (by omega), if_pos (by omega)]
    congr 1; omega

/-- Into a byte of zeros at bit 0, the insertion is the left-justified value that R90 writes. -/
theorem insertSingle_zero (w : Nat) (v : Byte) : insertSingle 0 0 w v = v <<< (8 - w) := by
  simp [insertSingle, setBitsOn, clearBitsOn]

/-- R47: the segment at bit `s` of byte `boff` is extracted from that byte and, where it straddles, the next. -/
theorem Memory.seg_pos (m : Memory) {boff s w : Nat} {lo : Byte} (hs : s ≤ 7) (hw : w ≤ 8)
    (hlo : 8 < s + w → lo = m.readOrZero (boff + 1)) :
    m.seg (pos boff s) w = (extract (m.readOrZero boff) lo s w).toNat := by
  apply Nat.eq_of_testBit_eq
  intro k
  change _ = (extract (m.readOrZero boff) lo s w).getLsbD k
  rw [Memory.testBit_seg]
  by_cases hk : k < w
  · have hbit : ∀ c : Bool, decide (c.toNat = 1) = c := by decide
    rw [getLsbD_extract _ _ hs hw (by omega), Memory.sbit_eq, hbit]
    have hq : pos boff s + (w - 1 - k) = 8 * boff + (s + w - 1 - k) := by unfold pos; omega
    rw [hq]
    by_cases hj : s + w - 1 - k < 8
    · rw [if_pos hj, show (8 * boff + (s + w - 1 - k)) / 8 = boff by omega,
        show (8 * boff + (s + w - 1 - k)) % 8 = s + w - 1 - k by omega]
    · rw [if_neg hj, hlo (by omega), show (8 * boff + (s + w - 1 - k)) / 8 = boff + 1 by omega,
        show 7 - (8 * boff + (s + w - 1 - k)) % 8 = 15 - (s + w - 1 - k) by omega]
  · rw [getLsbD_extract_of_width_le _ _ hs hw (by omega), decide_eq_false hk, Bool.false_and]

end Sys2Proof.Machine
end

section
/-!
PROOFS of 10_state.md, second part: good states. What the invariants say of the position, and three ways to show a state
good: its registers are those of reset, its cursor is idle, or its cursor is bound with `BoundInv`.
-/

namespace Sys2Proof.Machine

/-- The invariants speak of the parameters, the registers and the stream only. -/
theorem Inv.congr {s t : State} (h : Inv s) (hp : t.params = s.params) (hr : t.regs = s.regs)
    (hm : t.stream = s.stream) : Inv t := by
  obtain ⟨h1, h2, h3, h4, h5, h6, h7, h8, h9⟩ := h
  constructor <;> simp only [hp, hr, hm] <;> assumption

/-- The invariants of the stream and its parameters alone, which no register write can break. -/
structure StreamInv (s : State) : Prop where
  wf : s.stream.wf = true
  fits : s.stream.len ≤ s.params.streamCapacity
  params_fit : s.params.fits

theorem Inv.streamInv {s : State} (h : Inv s) : StreamInv s := ⟨h.stream_wf, h.stream_fits, h.params_fit⟩

theorem StreamInv.congr {s t : State} (h : StreamInv s) (hp : t.params = s.params) (hm : t.stream = s.stream) :
    StreamInv t := by
  obtain ⟨hwf, hfits, hparams⟩ := h
  constructor <;> simp only [hp, hm] <;> assumption

/-! The position (R27, R28, R32). -/

theorem Inv.position_inside {s : State} (h : Inv s) : s.regs.p ≤ 8 * s.stream.len := by
  by_cases hb : s.regs.bstate = .bound
  · exact (h.bound_inv hb).inside
  · obtain ⟨hboff, hsidx, -⟩ := h.unbound_idle hb
    simp [Regs.p_eq, Regs.s, hboff, hsidx]

theorem Inv.boff_le_len {s : State} (h : Inv s) : s.regs.boff ≤ s.stream.len := by
  have := h.position_inside
  rw [Regs.p_eq] at this
  omega

/-- A segment that starts inside a byte starts in a byte of the stream. -/
theorem Inv.boff_lt_len {s : State} (h : Inv s) (hs : 0 < s.regs.s) : s.regs.boff < s.stream.len := by
  have := h.position_inside
  rw [Regs.p_eq] at this
  omega

theorem Inv.len_pos {s : State} (h : Inv s) (hb : s.regs.bstate = .bound) (he : s.regs.empty = false) :
    0 < s.stream.len := by
  refine Nat.pos_of_ne_zero fun h0 => ?_
  rw [(h.bound_inv hb).empty_iff.2 h0] at he
  cases he

theorem Inv.empty_eq_false {s : State} (h : Inv s) (hb : s.regs.bstate = .bound) (hm : 0 < s.stream.len) :
    s.regs.empty = false :=
  Bool.eq_false_iff.2 fun he => hm.ne' ((h.bound_inv hb).empty_iff.1 he)

/-- Settles O37: R28's bound on the position, and R7's on the capacity, which bounds BOFF. -/
theorem invariantBoundsThePosition : Obligations.InvariantBoundsThePosition := by
  intro s h
  have hs := s.regs.s_le
  have hw := h.width_le
  have hboff := h.boff_le_len
  have hfits := h.stream_fits
  have hparams := h.params_fit
  refine ⟨by omega, by unfold Params.fits at hparams; omega, fun hb => ⟨hboff, fun hend => ?_, h.len_pos hb⟩⟩
  have hs0 : s.regs.s = 0 := Nat.eq_zero_of_not_pos fun hpos => (h.boff_lt_len hpos).ne hend
  exact BitVec.eq_of_toNat_eq hs0

/-! Showing a state good. -/

theorem Inv.of_idle {s : State} (hm : StreamInv s) (hw : 1 ≤ s.regs.w ∧ s.regs.w ≤ 8) (hb : s.regs.bstate ≠ .bound)
    (hidle : s.regs.boff = 0 ∧ s.regs.sidx = 0 ∧ s.regs.curb = 0 ∧ s.regs.val = 0 ∧ s.regs.empty = true) : Inv s := by
  obtain ⟨-, -, hcurb, hval, -⟩ := id hidle
  exact {
    width_pos := hw.1
    width_le := hw.2
    val_lt := by simp [hval]
    empty_zero := fun _ => ⟨hval, hcurb⟩
    stream_wf := hm.wf
    stream_fits := hm.fits
    params_fit := hm.params_fit
    unbound_idle := fun _ => hidle
    bound_inv := fun h => absurd h hb }

theorem Inv.of_regs_reset {s : State} (hm : StreamInv s) (hr : s.regs = Regs.reset) : Inv s :=
  .of_idle hm (by rw [hr]; decide) (by simp [hr]) (by simp [hr])

/-- Settles O34: the registers are those of reset, and the stream holds no byte. -/
theorem resetHoldsTheInvariant : Obligations.ResetHoldsTheInvariant :=
  .of_regs_reset ⟨Memory.wf_reset, Nat.zero_le _, Config.params_fits⟩ rfl

theorem Memory.seg_of_len_zero {m : Memory} (hm : m.len = 0) (p w : Nat) : m.seg p w = 0 := by
  obtain rfl : m = [] := List.eq_nil_of_length_eq_zero hm
  induction w with
  | zero => rfl
  | succ w ih => simp [Memory.seg_succ, ih, Memory.sbit_eq, Memory.readOrZero]

/-- R24 and R26 follow from R29 to R31: while EMPTY is 1 there is no byte to cache, and a segment value fits its width. -/
theorem Inv.of_bound {s : State} (hm : StreamInv s) (hw : 1 ≤ s.regs.w ∧ s.regs.w ≤ 8) (hb : s.regs.bstate = .bound)
    (h : BoundInv s.regs s.stream) : Inv s where
  width_pos := hw.1
  width_le := hw.2
  val_lt := by rw [h.val_eq]; exact Memory.seg_lt _ _ _
  empty_zero he := by
    have h0 := h.empty_iff.1 he
    have hval : s.regs.val.toNat = 0 := by rw [h.val_eq, Memory.seg_of_len_zero h0]
    exact ⟨BitVec.eq_of_toNat_eq hval, by rw [h.curb_eq, Memory.readOrZero_of_le hm.wf (by omega)]⟩
  stream_wf := hm.wf
  stream_fits := hm.fits
  params_fit := hm.params_fit
  unbound_idle hn := absurd hb hn
  bound_inv _ := h

/-- R31 holds where VAL was extracted from CURB and, for a straddling segment, the byte after it (R47). -/
theorem BoundInv.of_extract {r : Regs} {m : Memory} (lo : Byte) (hw : r.w ≤ 8) (haligned : r.p % r.w = 0)
    (hinside : r.p ≤ 8 * m.len) (hempty : r.empty = true ↔ m.len = 0) (hcurb : r.curb = m.readOrZero r.boff)
    (hlo : 8 < r.s + r.w → lo = m.readOrZero (r.boff + 1)) (hval : r.val = extract r.curb lo r.s r.w) :
    BoundInv r m :=
  ⟨haligned, hinside, hempty, hcurb, by rw [hval, hcurb]; exact (m.seg_pos r.s_le hw hlo).symm⟩

end Sys2Proof.Machine
end

section
/-!
PROOFS of 10_state.md, third part: what each command can do, as far as the invariants and the register table of R18 see
it. A command answers with new registers and the old stream (`Installs`), or writes the segment, or stops in a fault.
-/

namespace Sys2Proof.Machine

/-- `o` answers a state with the registers `r` and with the parameters and the stream of `s`. -/
def Installs (r : Regs) (s : State) (o : Host.Outcome State Fault Refusal) : Prop :=
  ∃ t : State, o = .next t ∧ t.params = s.params ∧ t.regs = r ∧ t.stream = s.stream

theorem Installs.ne_fault {r : Regs} {s : State} {o : Host.Outcome State Fault Refusal} {f : Fault}
    (h : Installs r s o) : o ≠ .fault f := by
  obtain ⟨t, rfl, -⟩ := h
  nofun

theorem Installs.regs_of_next {r : Regs} {s t : State} {o : Host.Outcome State Fault Refusal}
    (h : Installs r s o) (ho : o = .next t) : t.regs = r := by
  obtain ⟨t', rfl, -, hr, -⟩ := h
  cases ho
  exact hr

theorem Installs.inv_of_next {r : Regs} {s t : State} {o : Host.Outcome State Fault Refusal}
    (h : Installs r s o) (hi : Inv (s.setRegs r)) (ho : o = .next t) : Inv t := by
  obtain ⟨t', rfl, hp, hr, hm⟩ := h
  cases ho
  exact hi.congr hp hr hm

theorem installs_raise (e : Err) (s : State) : Installs s.regs s (raise e s) := ⟨_, rfl, rfl, rfl, rfl⟩

theorem installs_respond (d : Byte) (n : BitVec 8) (str : StrBus) (s : State) :
    Installs s.regs s (respond d n str s) := ⟨_, rfl, rfl, rfl, rfl⟩

/-! GET, GETS and MASK (R72, R86, R87). -/

theorem execGet_installs (s : State) : Installs s.regs s (execGet s) := by
  unfold execGet
  split
  · exact installs_raise _ s
  · exact installs_respond _ _ _ s

theorem execGets_installs (s : State) : Installs s.regs s (execGets s) := by
  unfold execGets
  split
  · exact installs_raise _ s
  · exact installs_respond _ _ _ s

theorem execMask_installs (zl : Bool) (zc : Nat) (s : State) : Installs s.regs s (execMask zl zc s) := by
  unfold execMask
  split
  · exact installs_respond _ _ _ s
  · exact installs_respond _ _ _ s.nextDraw

/-! INIT (R83, R84). -/

theorem execInit_cases (wreq : Nat) (s : State) :
    Installs (initRegs .failed (clampw wreq) true 0 0) s (execInit wreq s) ∨
    (s.stream.len = 0 ∧ Installs (initRegs .bound (clampw wreq) true 0 0) s (execInit wreq s)) ∨
    (s.stream.len ≠ 0 ∧ ∃ b, s.stream.byteAt 0 = some b ∧
      Installs (initRegs .bound (clampw wreq) false b (extract b 0 0 (clampw wreq))) s (execInit wreq s)) ∨
    (s.stream.len ≠ 0 ∧ s.stream.byteAt 0 = none) := by
  by_cases ho : s.input.openOk = true
  · by_cases hl : s.stream.len = 0
    · refine .inr (.inl ⟨hl, ?_⟩)
      simp [Installs, execInit, streamOpen, ho, hl, respond, emptyAfterOpen]
    · cases hr : s.stream.byteAt 0 with
      | none => exact .inr (.inr (.inr ⟨hl, rfl⟩))
      | some b =>
        refine .inr (.inr (.inl ⟨hl, b, rfl, ?_⟩))
        simp [Installs, execInit, streamOpen, memRead, ho, hl, hr, respond, emptyAfterOpen]
  · refine .inl ?_
    simp [Installs, execInit, streamOpen, ho, raise, emptyAfterFailedOpen]

/-! MVL and MVR (R96 to R100). -/

/-- The registers after a move to bit `bit` of byte `boff`, with the bytes `cur` and `lo` from there on. -/
def movedRegs (r : Regs) (boff bit : Nat) (cur lo : Byte) : Regs :=
  { r with val := extract cur lo bit r.w, curb := cur, boff := boff, sidx := BitVec.ofNat 3 bit }

section
variable (r : Regs) (boff bit : Nat) (cur lo : Byte)

@[simp] theorem movedRegs_bstate : (movedRegs r boff bit cur lo).bstate = r.bstate := rfl
@[simp] theorem movedRegs_width : (movedRegs r boff bit cur lo).width = r.width := rfl
@[simp] theorem movedRegs_w : (movedRegs r boff bit cur lo).w = r.w := rfl
@[simp] theorem movedRegs_boff : (movedRegs r boff bit cur lo).boff = boff := rfl
@[simp] theorem movedRegs_curb : (movedRegs r boff bit cur lo).curb = cur := rfl
@[simp] theorem movedRegs_val : (movedRegs r boff bit cur lo).val = extract cur lo bit r.w := rfl
@[simp] theorem movedRegs_empty : (movedRegs r boff bit cur lo).empty = r.empty := rfl

end

theorem movedRegs_s (r : Regs) (boff : Nat) {bit : Nat} (cur lo : Byte) (hbit : bit ≤ 7) :
    (movedRegs r boff bit cur lo).s = bit := by
  simp [movedRegs, Regs.s]
  omega

/-- The states in which MVL's pseudocode stops (R33, R97): a bound, non-empty cursor that would have to read the byte before
BOFF, where there is none. -/
def MvlBroken (s : State) : Prop :=
  s.regs.bstate = .bound ∧ s.regs.empty = false ∧ s.regs.s < s.regs.w ∧
    ((s.regs.boff = 0 ∧ 0 < s.regs.s) ∨ (0 < s.regs.boff ∧ s.stream.byteAt (s.regs.boff - 1) = none))

theorem atStart_eq_false {s : State} :
    atStart s = false ↔ s.regs.empty = false ∧ (s.regs.boff = 0 → 0 < s.regs.s) := by
  simp [atStart, Nat.pos_iff_ne_zero]

theorem execMvl_of_broken {s : State} (h : MvlBroken s) : execMvl s = .fault .invariantBroken := by
  obtain ⟨hb, he, hsw, hbyte⟩ := h
  have ha : atStart s = false := atStart_eq_false.2 ⟨he, by omega⟩
  unfold execMvl
  rw [bindingError_eq_none.2 hb]
  rcases hbyte with ⟨h0, -⟩ | ⟨h0, hr⟩
  · simp [ha, hsw, h0]
  · simp [ha, hsw, h0.ne', memRead, hr]

/-- Everything MVL can do: answer an error, move within CURB, move into the byte before it, or stop. -/
theorem execMvl_cases (s : State) :
    Installs s.regs s (execMvl s) ∨
    (s.regs.bstate = .bound ∧ s.regs.empty = false ∧ s.regs.w ≤ s.regs.s ∧
      Installs (movedRegs s.regs s.regs.boff (s.regs.s - s.regs.w) s.regs.curb 0) s (execMvl s)) ∨
    (s.regs.bstate = .bound ∧ s.regs.empty = false ∧ s.regs.s < s.regs.w ∧ s.regs.boff ≠ 0 ∧
      ∃ b, s.stream.byteAt (s.regs.boff - 1) = some b ∧
        Installs (movedRegs s.regs (s.regs.boff - 1) (s.regs.s + 8 - s.regs.w) b s.regs.curb) s (execMvl s)) ∨
    MvlBroken s := by
  cases hb : bindingError s with
  | some e =>
    simp only [execMvl, hb]
    exact .inl (installs_raise e s)
  | none =>
    have hbound := bindingError_eq_none.1 hb
    cases ha : atStart s with
    | true =>
      simp only [execMvl, hb, ha, if_true]
      exact .inl (installs_raise _ s)
    | false =>
      obtain ⟨he, hstart⟩ := atStart_eq_false.1 ha
      by_cases hw : s.regs.w ≤ s.regs.s
      · exact .inr (.inl ⟨hbound, he, hw, _, execMvl_within hbound ha hw, rfl, rfl, rfl⟩)
      · rw [Nat.not_le] at hw
        refine .inr (.inr ?_)
        by_cases h0 : s.regs.boff = 0
        · exact .inr ⟨hbound, he, hw, .inl ⟨h0, hstart h0⟩⟩
        · cases hr : s.stream.byteAt (s.regs.boff - 1) with
          | none => exact .inr ⟨hbound, he, hw, .inr ⟨Nat.pos_of_ne_zero h0, hr⟩⟩
          | some b =>
            exact .inl ⟨hbound, he, hw, h0, b, rfl, _, execMvl_across hbound ha hw h0 hr, rfl, rfl, rfl⟩

/-- The registers after an MVR that succeeds (R100). -/
def mvrRegs (r : Regs) (m : Memory) : Regs :=
  movedRegs r ((r.p + r.w) / 8) ((r.p + r.w) % 8)
    (if (r.p + r.w) / 8 = r.boff then r.curb else m.readOrZero ((r.p + r.w) / 8))
    (if 8 < (r.p + r.w) % 8 + r.w then m.readOrZero ((r.p + r.w) / 8 + 1) else 0)

/-- Everything MVR can do: answer an error, or move where the byte of the segment's last bit is there (R99, R100). -/
theorem execMvr_cases (s : State) :
    Installs s.regs s (execMvr s) ∨
    (s.regs.bstate = .bound ∧ s.regs.empty = false ∧
      (∃ x, s.stream.byteAt (endbyte s.regs.boff s.regs.s s.regs.w) = some x) ∧
      Installs (mvrRegs s.regs s.stream) s (execMvr s)) := by
  cases hb : bindingError s with
  | some e =>
    simp only [execMvr, hb]
    exact .inl (installs_raise e s)
  | none =>
    have hbound := bindingError_eq_none.1 hb
    cases he : s.regs.empty with
    | true =>
      simp only [execMvr, hb, he, if_true]
      exact .inl (installs_raise _ s)
    | false =>
      cases hr : s.stream.byteAt (endbyte s.regs.boff s.regs.s s.regs.w) with
      | none => exact .inl ⟨_, execMvr_of_eof hbound he hr, rfl, rfl, rfl⟩
      | some x => exact .inr ⟨hbound, rfl, ⟨x, rfl⟩, _, execMvr_of_probe hbound he rfl hr, rfl, rfl, rfl⟩

/-! SET and SETS (R88, R89, R95). -/

/-- SET and SETS, the two commands that may write the stream (R53). -/
def IsSetOrSets (i : Instr) : Prop := (∃ v, i = .set v) ∨ ∃ n, i = .sets n

/-- `o` is the outcome of writing a value of WIDTH bits into the segment of the bound cursor. -/
def WritesSegment (s : State) (o : Host.Outcome State Fault Refusal) : Prop :=
  s.regs.bstate = .bound ∧ ∃ v : Byte, v.toNat < 2 ^ s.regs.w ∧ o = writeSegment v s

theorem writesSegment_of_not_tooWide {v : Nat} {s : State} (hb : bindingError s = none) (hv : ¬ tooWide v s = true) :
    WritesSegment s (writeSegment (BitVec.ofNat 8 v) s) := by
  refine ⟨bindingError_eq_none.1 hb, _, lt_of_le_of_lt ?_ (by simpa [tooWide] using hv), rfl⟩
  rw [BitVec.toNat_ofNat]
  exact Nat.mod_le v _

theorem execSet_cases (v : Nat) (s : State) :
    Installs s.regs s (execSet v s) ∨ WritesSegment s (execSet v s) := by
  unfold execSet
  split
  · exact .inl (installs_raise _ s)
  · next hb =>
    split
    · exact .inl (installs_raise _ s)
    · next hv => exact .inr (writesSegment_of_not_tooWide hb hv)

theorem execSets_cases (n : Nat) (s : State) :
    Installs s.regs s (execSets n s) ∨ WritesSegment s (execSets n s) := by
  unfold execSets
  split
  · exact .inl (installs_raise _ s)
  · next hb =>
    split
    · exact .inl (installs_raise _ s)
    · split
      · exact .inl (installs_raise _ s)
      · next hv => exact .inr (writesSegment_of_not_tooWide hb hv)

theorem WritesSegment.regs_of_next {s t : State} {o : Host.Outcome State Fault Refusal} (h : WritesSegment s o)
    (ho : o = .next t) : ∃ v, t.regs = segmentRegs v s := by
  obtain ⟨-, v, -, rfl⟩ := h
  obtain ⟨s', -, rfl⟩ := writeSegment_eq_next.1 ho
  exact ⟨v, rfl⟩

/-! The register table of R18. -/

/-- What the column "written by" of R18 lets the command `i` do to the registers `r`. -/
def AllowedWrite (i : Instr) (r r' : Regs) : Prop :=
  r'.bstate = r.bstate ∧ r'.width = r.width ∧
  (i ≠ .mvl → i ≠ .mvr → r'.boff = r.boff ∧ r'.sidx = r.sidx) ∧
  ((i = .get ∨ i = .gets ∨ ∃ zl zc, i = .mask zl zc) → r' = r) ∧
  (r'.empty ≠ r.empty → r'.empty = false ∧ IsSetOrSets i)

theorem allowedWrite_self (i : Instr) (r : Regs) : AllowedWrite i r r :=
  ⟨rfl, rfl, fun _ _ => ⟨rfl, rfl⟩, fun _ => rfl, fun h => absurd rfl h⟩

theorem allowedWrite_movedRegs {i : Instr} (hi : i = .mvl ∨ i = .mvr) (r : Regs) (boff bit : Nat) (cur lo : Byte) :
    AllowedWrite i r (movedRegs r boff bit cur lo) := by
  rcases hi with rfl | rfl <;> simp [AllowedWrite]

theorem allowedWrite_segmentRegs {i : Instr} (hi : IsSetOrSets i) (v : Byte) (s : State) :
    AllowedWrite i s.regs (segmentRegs v s) := by
  rcases hi with ⟨x, rfl⟩ | ⟨x, rfl⟩ <;> simp [AllowedWrite, IsSetOrSets]

theorem allowedWrite_of_set_or_sets {i : Instr} {s t : State} {o : Host.Outcome State Fault Refusal}
    (hi : IsSetOrSets i) (h : Installs s.regs s o ∨ WritesSegment s o) (ho : o = .next t) :
    AllowedWrite i s.regs t.regs := by
  rcases h with h | h
  · rw [h.regs_of_next ho]
    exact allowedWrite_self i _
  · obtain ⟨v, hv⟩ := h.regs_of_next ho
    rw [hv]
    exact allowedWrite_segmentRegs hi v s

/-- Settles O47, command by command: each either leaves the registers, or moves the cursor, or writes the segment. -/
theorem registersChangeOnlyByTheirCommands : Obligations.RegistersChangeOnlyByTheirCommands := by
  intro i s t h hinit
  change AllowedWrite i s.regs t.regs
  cases i with
  | init w => exact absurd rfl (hinit w)
  | get => rw [(execGet_installs s).regs_of_next h]; exact allowedWrite_self _ _
  | gets => rw [(execGets_installs s).regs_of_next h]; exact allowedWrite_self _ _
  | set v => exact allowedWrite_of_set_or_sets (.inl ⟨v, rfl⟩) (execSet_cases v s) h
  | sets n => exact allowedWrite_of_set_or_sets (.inr ⟨n, rfl⟩) (execSets_cases n s) h
  | mvl =>
    rcases execMvl_cases s with hk | ⟨-, -, -, hk⟩ | ⟨-, -, -, -, b, -, hk⟩ | hbroken
    · rw [hk.regs_of_next h]; exact allowedWrite_self _ _
    · rw [hk.regs_of_next h]; exact allowedWrite_movedRegs (.inl rfl) ..
    · rw [hk.regs_of_next h]; exact allowedWrite_movedRegs (.inl rfl) ..
    · cases (execMvl_of_broken hbroken).symm.trans h
  | mvr =>
    rcases execMvr_cases s with hk | ⟨-, -, -, hk⟩
    · rw [hk.regs_of_next h]; exact allowedWrite_self _ _
    · rw [hk.regs_of_next h]; exact allowedWrite_movedRegs (.inr rfl) ..
  | mask zl zc => rw [(execMask_installs zl zc s).regs_of_next h]; exact allowedWrite_self _ _

end Sys2Proof.Machine
end

section
/-!
PROOFS of 10_state.md, fourth part: MVL's two faults, and every step keeps the invariants. Each command is one lemma over
good states: its new registers are good (INIT, MVL, MVR), or its writes put the new VAL where the cursor stands (SET, SETS).
-/

namespace Sys2Proof.Machine

/-! MVL in a good state (R33). -/

/-- In a good state the byte before BOFF is there, and a position in byte 0 that is not 0 is at least WIDTH. -/
theorem Inv.not_mvlBroken {s : State} (h : Inv s) : ¬ MvlBroken s := by
  rintro ⟨hb, -, hsw, ⟨hboff, hs⟩ | ⟨hboff, hbyte⟩⟩
  · have haligned := (h.bound_inv hb).aligned
    rw [Regs.p_eq, hboff, Nat.mod_eq_of_lt (by omega)] at haligned
    omega
  · have hend := (Memory.byteAt_eq_none h.stream_wf).1 hbyte
    have hinside := h.boff_le_len
    omega

/-- Settles O30: MVL's only faulting case is `MvlBroken`. -/
theorem mvlFaultsOnlyInExcludedStates : Obligations.MvlFaultsOnlyInExcludedStates := by
  intro s
  have hfault : ∀ f, exec .mvl s = .fault f → f = .invariantBroken ∧ MvlBroken s := by
    intro f h
    rcases execMvl_cases s with hk | ⟨-, -, -, hk⟩ | ⟨-, -, -, -, b, -, hk⟩ | hbroken
    · exact absurd h hk.ne_fault
    · exact absurd h hk.ne_fault
    · exact absurd h hk.ne_fault
    · cases (execMvl_of_broken hbroken).symm.trans h
      exact ⟨rfl, hbroken⟩
  refine ⟨fun f => ⟨hfault f, ?_⟩, fun hi f h => hi.not_mvlBroken (hfault f h).2⟩
  rintro ⟨rfl, hbroken⟩
  exact execMvl_of_broken hbroken

/-! INIT. -/

theorem clampw_bounds (x : Nat) : 1 ≤ clampw x ∧ clampw x ≤ 8 := by
  unfold clampw
  split <;> omega

theorem initRegs_w (b : BState) (e : Bool) (c v : Byte) (x : Nat) : (initRegs b (clampw x) e c v).w = clampw x := by
  have := clampw_bounds x
  simp [Regs.w]
  omega

/-- After a failed open the cursor is idle (R84). -/
theorem Inv.init_failed {s : State} (h : Inv s) (wreq : Nat) :
    Inv (s.setRegs (initRegs .failed (clampw wreq) true 0 0)) := by
  refine .of_idle (h.streamInv.congr rfl rfl) ?_ (by simp) (by simp)
  rw [State.setRegs_regs, initRegs_w]
  exact clampw_bounds wreq

/-- At segment 0 of an opened stream, CURB is byte 0 or the phantom byte, and VAL its first bits (R83). -/
theorem Inv.init_bound {s : State} (h : Inv s) (wreq : Nat) {e : Bool} {b : Byte}
    (he : e = true ↔ s.stream.len = 0) (hc : b = s.stream.readOrZero 0) :
    Inv (s.setRegs (initRegs .bound (clampw wreq) e b (extract b 0 0 (clampw wreq)))) := by
  have hw := clampw_bounds wreq
  rw [← initRegs_w .bound e b (extract b 0 0 (clampw wreq)) wreq] at hw
  have hs0 : (initRegs .bound (clampw wreq) e b (extract b 0 0 (clampw wreq))).s = 0 := rfl
  have hp0 : (initRegs .bound (clampw wreq) e b (extract b 0 0 (clampw wreq))).p = 0 := rfl
  refine .of_bound (h.streamInv.congr rfl rfl) hw rfl (.of_extract 0 hw.2 ?_ ?_ he hc ?_ ?_)
  · rw [State.setRegs_regs, hp0, Nat.zero_mod]
  · rw [State.setRegs_regs, hp0]
    exact Nat.zero_le _
  · rw [State.setRegs_regs, hs0]
    omega
  · rw [State.setRegs_regs, hs0, initRegs_w]
    rfl

theorem extract_zero (s w : Nat) : extract 0 0 s w = 0 := by
  simp [extract, concatBytes]

theorem execInit_keepsInv {s t : State} {wreq : Nat} (h : Inv s) (ht : execInit wreq s = .next t) : Inv t := by
  rcases execInit_cases wreq s with hk | ⟨hl, hk⟩ | ⟨hl, b, hb, hk⟩ | ⟨hl, hbyte⟩
  · exact hk.inv_of_next (h.init_failed wreq) ht
  · have hphantom := (Memory.readOrZero_of_le h.stream_wf (i := 0) (by omega)).symm
    refine hk.inv_of_next ?_ ht
    simpa only [extract_zero] using h.init_bound wreq (e := true) (by simp [hl]) hphantom
  · have hbyte : b = s.stream.readOrZero 0 := by simp [Memory.readOrZero, hb]
    exact hk.inv_of_next (h.init_bound wreq (e := false) (by simp [hl]) hbyte) ht
  · exact absurd ((Memory.byteAt_eq_none h.stream_wf).1 hbyte) (by omega)

/-! MVL and MVR. -/

/-- A move inside a stream that is not empty keeps the invariants where it lands on a multiple of the width with the bytes
that stand there. -/
theorem Inv.moved {s : State} (h : Inv s) (hb : s.regs.bstate = .bound) {boff bit : Nat} {cur lo : Byte}
    (hbit : bit ≤ 7) (haligned : pos boff bit % s.regs.w = 0) (hinside : pos boff bit ≤ 8 * s.stream.len)
    (hcur : cur = s.stream.readOrZero boff)
    (hlo : 8 < bit + s.regs.w → lo = s.stream.readOrZero (boff + 1)) :
    Inv (s.setRegs (movedRegs s.regs boff bit cur lo)) := by
  have hs := movedRegs_s s.regs boff cur lo hbit
  have hp : (movedRegs s.regs boff bit cur lo).p = pos boff bit := by rw [Regs.p, hs, movedRegs_boff]
  refine .of_bound (h.streamInv.congr rfl rfl) ⟨h.width_pos, h.width_le⟩ hb
    (.of_extract lo h.width_le ?_ ?_ ?_ hcur ?_ ?_)
  · rw [State.setRegs_regs, hp]; exact haligned
  · rw [State.setRegs_regs, hp]; exact hinside
  · exact (h.bound_inv hb).empty_iff
  · rw [State.setRegs_regs, hs]; exact hlo
  · rw [State.setRegs_regs, hs]; rfl

theorem execMvl_keepsInv {s t : State} (h : Inv s) (ht : execMvl s = .next t) : Inv t := by
  have hs := s.regs.s_le
  have hw := h.width_le
  have hinside := h.position_inside
  have hp := s.regs.p_eq
  rcases execMvl_cases s with hk | ⟨hb, -, hsw, hk⟩ | ⟨hb, -, hsw, h0, b, hbyte, hk⟩ | hbroken
  · exact hk.inv_of_next h ht
  · have hpos : pos s.regs.boff (s.regs.s - s.regs.w) = s.regs.p - s.regs.w := by rw [pos]; omega
    have haligned : pos s.regs.boff (s.regs.s - s.regs.w) % s.regs.w = 0 := by
      rw [hpos, ← Nat.mod_eq_sub_mod (by omega), (h.bound_inv hb).aligned]
    exact hk.inv_of_next (h.moved hb (by omega) haligned (by omega) (h.bound_inv hb).curb_eq (by omega)) ht
  · have hpos : pos (s.regs.boff - 1) (s.regs.s + 8 - s.regs.w) = s.regs.p - s.regs.w := by rw [pos]; omega
    have haligned : pos (s.regs.boff - 1) (s.regs.s + 8 - s.regs.w) % s.regs.w = 0 := by
      rw [hpos, ← Nat.mod_eq_sub_mod (by omega), (h.bound_inv hb).aligned]
    have hcur : b = s.stream.readOrZero (s.regs.boff - 1) := by simp [Memory.readOrZero, hbyte]
    have hlo : s.regs.curb = s.stream.readOrZero (s.regs.boff - 1 + 1) := by
      rw [(h.bound_inv hb).curb_eq, Nat.sub_add_cancel (Nat.pos_of_ne_zero h0)]
    exact hk.inv_of_next (h.moved hb (by omega) haligned (by omega) hcur fun _ => hlo) ht
  · exact absurd hbroken h.not_mvlBroken

theorem execMvr_keepsInv {s t : State} (h : Inv s) (ht : execMvr s = .next t) : Inv t := by
  rcases execMvr_cases s with hk | ⟨hb, -, ⟨x, hx⟩, hk⟩
  · exact hk.inv_of_next h ht
  · have hw := h.width_pos
    have hend : endbyte s.regs.boff s.regs.s s.regs.w < s.stream.len :=
      (Memory.byteAt_isSome h.stream_wf _).1 (by rw [hx]; rfl)
    have hp : pos s.regs.boff s.regs.s = s.regs.p := rfl
    rw [endbyte, hp] at hend
    have hpos : pos ((s.regs.p + s.regs.w) / 8) ((s.regs.p + s.regs.w) % 8) = s.regs.p + s.regs.w :=
      Nat.div_add_mod _ 8
    refine hk.inv_of_next (h.moved hb (by omega) ?_ (by omega) ?_ fun hstraddle => if_pos hstraddle) ht
    · rw [hpos, Nat.add_mod_right, (h.bound_inv hb).aligned]
    · split
      · next hsame => rw [hsame, (h.bound_inv hb).curb_eq]
      · rfl

/-! SET and SETS. -/

theorem Memory.len_put_pos (m : Memory) (i : Nat) (v : Byte) : 0 < (m.put i v).len := by
  have hbyte : (m.put i v).byteAt i = some v := m.byteAt_put_same i v
  refine Nat.pos_of_ne_zero fun h0 => ?_
  rw [List.eq_nil_of_length_eq_zero h0] at hbyte
  cases hbyte

/-- A segment inside one byte is merged into CURB, also on an empty stream, where CURB and the position are 0 (R90, R91). -/
theorem Inv.segmentWrites_of_single {s : State} (h : Inv s) (hb : s.regs.bstate = .bound) (v : Byte)
    (hsw : s.regs.s + s.regs.w ≤ 8) :
    segmentWrites v s = [(s.regs.boff, insertSingle s.regs.curb s.regs.s s.regs.w v)] ∧
      segmentCurb v s = insertSingle s.regs.curb s.regs.s s.regs.w v := by
  cases he : s.regs.empty with
  | false => exact ⟨Machine.segmentWrites_of_single v he hsw, by simp [segmentCurb, he, single, hsw]⟩
  | true =>
    have hinside := h.position_inside
    rw [(h.bound_inv hb).empty_iff.1 he, Regs.p_eq] at hinside
    obtain ⟨-, hcurb⟩ := h.empty_zero he
    rw [segmentWrites_of_empty v he, hcurb, show s.regs.s = 0 by omega, show s.regs.boff = 0 by omega,
      insertSingle_zero]
    exact ⟨rfl, by simp [segmentCurb, he]⟩

/-- A straddling segment starts inside a byte of the stream, so that the stream is not empty (R32, R92). -/
theorem Inv.empty_eq_false_of_straddle {s : State} (h : Inv s) (hb : s.regs.bstate = .bound)
    (hsw : 8 < s.regs.s + s.regs.w) : s.regs.empty = false := by
  have hw := h.width_le
  have hlt := h.boff_lt_len (by omega)
  exact h.empty_eq_false hb (by omega)

/-- The writes of a segment put the new VAL and CURB where the cursor stands (R89 to R92). -/
theorem Inv.boundInv_written {s : State} (h : Inv s) (hb : s.regs.bstate = .bound) {v : Byte}
    (hv : v.toNat < 2 ^ s.regs.w) :
    BoundInv (segmentRegs v s) ((segmentWrites v s).foldl (fun m x => m.put x.1 x.2) s.stream) := by
  have hw := h.width_le
  have hs := s.regs.s_le
  have haligned := (h.bound_inv hb).aligned
  have hinside := h.position_inside
  by_cases hsw : s.regs.s + s.regs.w ≤ 8
  · obtain ⟨hwrites, hcurb⟩ := h.segmentWrites_of_single hb v hsw
    have hlen := s.stream.len_le_len_put s.regs.boff (insertSingle s.regs.curb s.regs.s s.regs.w v)
    have hpos := s.stream.len_put_pos s.regs.boff (insertSingle s.regs.curb s.regs.s s.regs.w v)
    rw [hwrites]
    refine .of_extract 0 hw haligned (le_trans hinside (Nat.mul_le_mul_left 8 hlen)) ?_ ?_ ?_ ?_
    · simp [hpos.ne']
    · simp [hcurb, Memory.readOrZero_put]
    · exact fun hstraddle => absurd hsw (Nat.not_le.2 hstraddle)
    · rw [segmentRegs_curb, hcurb]
      exact (extract_insertSingle _ _ hs hsw hv).symm
  · rw [Nat.not_le] at hsw
    have he := h.empty_eq_false_of_straddle hb hsw
    have hcurb : segmentCurb v s = insertHi s.regs.curb s.regs.s s.regs.w v := by
      simp [segmentCurb, he, single, hsw]
    set lo := insertLo (s.stream.readOrZero (s.regs.boff + 1)) s.regs.s s.regs.w v with hlo
    have hlen := le_trans (s.stream.len_le_len_put s.regs.boff (insertHi s.regs.curb s.regs.s s.regs.w v))
      (Memory.len_le_len_put _ (s.regs.boff + 1) lo)
    have hpos := Memory.len_put_pos (s.stream.put s.regs.boff (insertHi s.regs.curb s.regs.s s.regs.w v))
      (s.regs.boff + 1) lo
    rw [segmentWrites_of_straddle v he hsw]
    refine .of_extract lo hw haligned (le_trans hinside (Nat.mul_le_mul_left 8 hlen)) ?_ ?_ ?_ ?_
    · simp [← hlo, hpos.ne']
    · simp [hcurb, Memory.readOrZero_put]
    · simp [Memory.readOrZero_put, hlo]
    · rw [segmentRegs_curb, hcurb]
      exact (extract_insertHi_insertLo _ _ hs hsw hw hv).symm

/-- An answered write is at most an append within the capacity, so the stream stays good (R41). -/
theorem StreamInv.memWrite {i : Nat} {v : Byte} {s t : State} (h : StreamInv s) (hk : memWrite i v s = .ok t) :
    StreamInv t := by
  obtain ⟨hi, hcap, rfl⟩ := memWrite_eq_ok.1 hk
  refine ⟨Memory.wf_put v h.wf hi, ?_, h.params_fit⟩
  have hfits := h.fits
  change (s.stream.put i v).len ≤ s.params.streamCapacity
  rcases Nat.lt_or_eq_of_le hi with hlt | heq
  · rw [Memory.len_put_lt v h.wf hlt]
    exact hfits
  · rw [Memory.len_put_append v h.wf heq]
    exact hcap heq

theorem StreamInv.memWrites {ws : List (Nat × Byte)} {s t : State} (h : StreamInv s) (hk : memWrites ws s = .ok t) :
    StreamInv t := by
  induction ws generalizing s with
  | nil => cases hk; exact h
  | cons w ws ih =>
    obtain ⟨s', hfirst, hrest⟩ := memWrites_cons_eq_ok.1 hk
    exact ih (h.memWrite hfirst) hrest

theorem WritesSegment.inv_of_next {s t : State} {o : Host.Outcome State Fault Refusal} (hk : WritesSegment s o)
    (h : Inv s) (ht : o = .next t) : Inv t := by
  obtain ⟨hb, v, hv, rfl⟩ := hk
  have hstream := writeSegment_stream ht
  obtain ⟨s', hwrites, rfl⟩ := writeSegment_eq_next.1 ht
  have hread : StreamInv (if straddles s then s.addAccess (.read (s.regs.boff + 1)) else s) := by
    split <;> exact h.streamInv.congr rfl rfl
  have hbound := h.boundInv_written hb hv
  rw [← hstream] at hbound
  exact .of_bound ((hread.memWrites hwrites).congr rfl rfl) ⟨h.width_pos, h.width_le⟩ hb hbound

/-! The step. -/

theorem exec_keepsInv {i : Instr} {s t : State} (h : Inv s) (ht : exec i s = .next t) : Inv t := by
  cases i with
  | init wreq => exact execInit_keepsInv h ht
  | get => exact (execGet_installs s).inv_of_next h ht
  | gets => exact (execGets_installs s).inv_of_next h ht
  | set v => exact (execSet_cases v s).elim (·.inv_of_next h ht) (·.inv_of_next h ht)
  | sets n => exact (execSets_cases n s).elim (·.inv_of_next h ht) (·.inv_of_next h ht)
  | mvl => exact execMvl_keepsInv h ht
  | mvr => exact execMvr_keepsInv h ht
  | mask zl zc => exact (execMask_installs zl zc s).inv_of_next h ht

theorem Inv.presented {s : State} (h : Inv s) (c : Command) : Inv (present c s) := h.congr rfl rfl rfl

theorem runCommand_keepsInv {c : Command} {s t : State} (h : Inv s) (ht : runCommand c s = .next t) : Inv t := by
  unfold runCommand at ht
  split at ht
  · exact exec_keepsInv (h.presented c) ht
  · exact (installs_raise _ (present c s)).inv_of_next (h.presented c) ht

/-- A reset during a command keeps the first of its writes and no register (R122). -/
theorem abortCommand_keepsInv {c : Command} {k : Nat} {s t : State} (h : Inv s)
    (ht : abortCommand c k s = .next t) : Inv t := by
  unfold abortCommand at ht
  split at ht
  · cases ht
    exact .of_regs_reset (h.streamInv.congr rfl rfl) rfl
  · split at ht
    · next hwrites =>
      cases ht
      exact .of_regs_reset (((h.presented c).streamInv.memWrites hwrites).congr rfl rfl) rfl
    · cases ht

/-- New contents reach only a cursor that is not bound, which holds no copy of them (R127). -/
theorem loadStream_keepsInv {bytes : List Byte} {s t : State} (h : Inv s) (ht : loadStream bytes s = .next t) :
    Inv t := by
  unfold loadStream at ht
  split_ifs at ht with hb hcap
  cases ht
  have hlen : (Memory.ofBytes bytes).len = bytes.length := Memory.len_ofBytesFrom 0 bytes
  have hstream : StreamInv (s.setStream (Memory.ofBytes bytes)) :=
    ⟨Memory.wf_ofBytes bytes, by simp [hlen]; omega, h.params_fit⟩
  exact .of_idle hstream ⟨h.width_pos, h.width_le⟩ hb (h.unbound_idle hb)

theorem takeInput_keepsInv {x : HostInput} {s t : State} (h : Inv s) (ht : takeInput x s = .next t) : Inv t := by
  cases x with
  | command c => exact runCommand_keepsInv h ht
  | reset =>
    cases ht
    exact .of_regs_reset (h.streamInv.congr rfl rfl) rfl
  | resetDuring c k => exact abortCommand_keepsInv h ht
  | loadStream bytes => exact loadStream_keepsInv h ht

/-- Settles O35, by cases over the input the step takes. -/
theorem stepKeepsTheInvariant : Obligations.StepKeepsTheInvariant := by
  intro s t h ht
  cases hq : s.inbox with
  | nil =>
    rw [step_idle hq] at ht
    cases ht
    exact h
  | cons x rest =>
    rw [step_input hq] at ht
    exact takeInput_keepsInv (s := { s with inbox := rest }) (h.congr rfl rfl rfl) ht

end Sys2Proof.Machine
end

section
/-!
PROOFS of 10_state.md, fifth part: a good state faults only where a write of SET or SETS would append beyond the capacity.
-/

namespace Sys2Proof.Machine

/-- The fault `f` is that of an append beyond the capacity (R41), by the bound cursor of `s`. -/
def FullStreamFault (f : Fault) (s : State) : Prop :=
  f = .streamFull ∧ s.stream.len = s.params.streamCapacity ∧ s.regs.bstate = .bound

/-- Where the first `k` of a sequence of writes fault, the whole sequence does. -/
theorem memWrites_eq_error_of_take {ws : List (Nat × Byte)} {k : Nat} {s : State} {f : Fault}
    (h : memWrites (ws.take k) s = .error f) : memWrites ws s = .error f := by
  induction ws generalizing k s with
  | nil => rwa [List.take_nil] at h
  | cons w ws ih =>
    cases k with
    | zero => cases h
    | succ k =>
      rw [List.take_succ_cons, memWrites_cons_eq_error] at h
      rcases h with hfirst | ⟨s', hfirst, hrest⟩
      · exact memWrites_cons_eq_error.2 (.inl hfirst)
      · exact memWrites_cons_eq_error.2 (.inr ⟨s', hfirst, ih hrest⟩)

theorem memWrites_singleton_eq_error {i : Nat} {v : Byte} {s : State} {f : Fault} :
    memWrites [(i, v)] s = .error f ↔ memWrite i v s = .error f := by
  simp [memWrites_cons_eq_error]

/-- A write at or below L faults only as an append to a full stream (R41). -/
theorem memWrite_eq_error_of_le {i : Nat} {v : Byte} {s : State} {f : Fault} (hi : i ≤ s.stream.len)
    (h : memWrite i v s = .error f) :
    f = .streamFull ∧ i = s.stream.len ∧ s.params.streamCapacity ≤ s.stream.len := by
  rcases memWrite_eq_error.1 h with ⟨hlt, -⟩ | ⟨heq, hcap, rfl⟩
  · omega
  · exact ⟨rfl, heq, hcap⟩

/-- The writes of a segment fault only on a full stream; `u` is `s` with its accesses up to the writes. -/
theorem Inv.segmentWrites_eq_error {s u : State} {v : Byte} {f : Fault} (h : Inv s) (hb : s.regs.bstate = .bound)
    (hp : u.params = s.params) (hm : u.stream = s.stream) (hf : memWrites (segmentWrites v s) u = .error f) :
    f = .streamFull ∧ s.stream.len = s.params.streamCapacity := by
  have hfits := h.stream_fits
  by_cases hsw : s.regs.s + s.regs.w ≤ 8
  · rw [(h.segmentWrites_of_single hb v hsw).1, memWrites_singleton_eq_error] at hf
    obtain ⟨rfl, -, hcap⟩ := memWrite_eq_error_of_le (by rw [hm]; exact h.boff_le_len) hf
    rw [hp, hm] at hcap
    exact ⟨rfl, le_antisymm hfits hcap⟩
  · rw [Nat.not_le] at hsw
    have hw := h.width_le
    have hlt := h.boff_lt_len (by omega)
    rw [segmentWrites_of_straddle v (h.empty_eq_false_of_straddle hb hsw) hsw, memWrites_cons_eq_error] at hf
    rcases hf with hfirst | ⟨s', hfirst, hsecond⟩
    · obtain ⟨-, heq, -⟩ := memWrite_eq_error_of_le (by rw [hm]; exact hlt.le) hfirst
      rw [hm] at heq
      omega
    · obtain ⟨-, -, rfl⟩ := memWrite_eq_ok.1 hfirst
      have hlen (b : Byte) : (s.stream.put s.regs.boff b).len = s.stream.len := Memory.len_put_lt b h.stream_wf hlt
      rw [memWrites_singleton_eq_error] at hsecond
      obtain ⟨rfl, -, hcap⟩ := memWrite_eq_error_of_le (by simpa [hm, hlen] using hlt) hsecond
      simp only [State.addAccess_params, State.addAccess_stream, State.setStream_params, State.setStream_stream,
        hp, hm, hlen] at hcap
      exact ⟨rfl, le_antisymm hfits hcap⟩

theorem WritesSegment.eq_fault {s : State} {o : Host.Outcome State Fault Refusal} {f : Fault}
    (hk : WritesSegment s o) (h : Inv s) (hf : o = .fault f) :
    FullStreamFault f s := by
  obtain ⟨hb, v, -, rfl⟩ := hk
  have hwrites := writeSegment_eq_fault.1 hf
  obtain ⟨hfull, hlen⟩ := h.segmentWrites_eq_error hb (by split <;> rfl) (by split <;> rfl) hwrites
  exact ⟨hfull, hlen, hb⟩

/-- From a good state a command faults only as a SET or SETS on a full stream. -/
theorem exec_eq_fault {i : Instr} {s : State} {f : Fault} (h : Inv s) (hf : exec i s = .fault f) :
    FullStreamFault f s ∧ IsSetOrSets i := by
  cases i with
  | init wreq =>
    rcases execInit_cases wreq s with hk | ⟨-, hk⟩ | ⟨-, b, -, hk⟩ | ⟨hl, hbyte⟩
    · exact absurd hf hk.ne_fault
    · exact absurd hf hk.ne_fault
    · exact absurd hf hk.ne_fault
    · exact absurd ((Memory.byteAt_eq_none h.stream_wf).1 hbyte) (by omega)
  | get => exact absurd hf (execGet_installs s).ne_fault
  | gets => exact absurd hf (execGets_installs s).ne_fault
  | set v => exact ⟨(execSet_cases v s).elim (absurd hf ·.ne_fault) (·.eq_fault h hf), .inl ⟨v, rfl⟩⟩
  | sets n => exact ⟨(execSets_cases n s).elim (absurd hf ·.ne_fault) (·.eq_fault h hf), .inr ⟨n, rfl⟩⟩
  | mvl => exact absurd hf ((mvlFaultsOnlyInExcludedStates s).2 h f)
  | mvr =>
    rcases execMvr_cases s with hk | ⟨-, -, -, hk⟩
    · exact absurd hf hk.ne_fault
    · exact absurd hf hk.ne_fault
  | mask zl zc => exact absurd hf (execMask_installs zl zc s).ne_fault

theorem runCommand_eq_fault {c : Command} {s : State} {f : Fault} (hf : runCommand c s = .fault f) :
    ∃ i, decode c.word = .ok i ∧ exec i (present c s) = .fault f := by
  unfold runCommand at hf
  split at hf
  · next i hi => exact ⟨i, hi, hf⟩
  · exact absurd hf raise_ne_fault

theorem abortCommand_eq_fault {c : Command} {k : Nat} {s : State} {f : Fault} (hf : abortCommand c k s = .fault f) :
    ∃ i, decode c.word = .ok i ∧ memWrites ((commandWrites i (present c s)).take k) (present c s) = .error f := by
  unfold abortCommand at hf
  split at hf
  · cases hf
  · next i hi =>
    split at hf
    · cases hf
    · next hwrites =>
      cases hf
      exact ⟨i, hi, hwrites⟩

/-- A command makes no stream write, or is a SET or SETS of a bound cursor that writes its segment (R53). -/
theorem commandWrites_cases (i : Instr) (s : State) :
    commandWrites i s = [] ∨
      (s.regs.bstate = .bound ∧ IsSetOrSets i ∧ ∃ v, commandWrites i s = segmentWrites v s) := by
  cases hb : bindingError s with
  | some e => exact .inl (by simp [commandWrites, hb])
  | none =>
    have hbound := bindingError_eq_none.1 hb
    cases i with
    | set v =>
      by_cases hv : tooWide v s = true
      · exact .inl (by simp [commandWrites, hb, hv])
      · exact .inr ⟨hbound, .inl ⟨v, rfl⟩, BitVec.ofNat 8 v, by simp [commandWrites, hb, hv]⟩
    | sets n =>
      cases hn : stringOperand n s with
      | none => exact .inl (by simp [commandWrites, hb, hn])
      | some v =>
        by_cases hv : tooWide v s = true
        · exact .inl (by simp [commandWrites, hb, hn, hv])
        · exact .inr ⟨hbound, .inr ⟨n, rfl⟩, BitVec.ofNat 8 v, by simp [commandWrites, hb, hn, hv]⟩
    | _ => exact .inl (commandWrites_of_other s nofun nofun)

/-- The first `k` writes of a command fault only as a SET or SETS on a full stream (R122). -/
theorem Inv.commandWrites_take_eq_error {i : Instr} {k : Nat} {s : State} {f : Fault} (h : Inv s)
    (hf : memWrites ((commandWrites i s).take k) s = .error f) :
    FullStreamFault f s ∧ IsSetOrSets i := by
  have hall := memWrites_eq_error_of_take hf
  rcases commandWrites_cases i s with hnone | ⟨hb, hi, v, hv⟩
  · rw [hnone] at hall
    cases hall
  · rw [hv] at hall
    obtain ⟨hfull, hlen⟩ := h.segmentWrites_eq_error hb rfl rfl hall
    exact ⟨⟨hfull, hlen, hb⟩, hi⟩

/-- Settles O36: of the inputs only a command, or a reset during one, can fault, and both fault in the command's writes. -/
theorem faultsOnlyWhenTheStreamIsFull : Obligations.FaultsOnlyWhenTheStreamIsFull := by
  intro s f h hf
  cases hq : s.inbox with
  | nil => cases (step_idle hq).symm.trans hf
  | cons x rest =>
    rw [step_input hq] at hf
    have hgood (c : Command) : Inv (present c { s with inbox := rest }) := h.congr rfl rfl rfl
    cases x with
    | command c =>
      obtain ⟨i, hi, hexec⟩ := runCommand_eq_fault hf
      obtain ⟨⟨hfull, hlen, hb⟩, hset⟩ := exec_eq_fault (hgood c) hexec
      exact ⟨hfull, hlen, hb, c, rest, i, .inl rfl, hi, hset⟩
    | reset => cases hf
    | resetDuring c k =>
      obtain ⟨i, hi, hwrites⟩ := abortCommand_eq_fault hf
      obtain ⟨⟨hfull, hlen, hb⟩, hset⟩ := (hgood c).commandWrites_take_eq_error hwrites
      exact ⟨hfull, hlen, hb, c, rest, i, .inr ⟨k, rfl⟩, hi, hset⟩
    | loadStream bytes =>
      simp only [takeInput, loadStream] at hf
      split_ifs at hf

end Sys2Proof.Machine
end

section
/-!
PROOFS of 20_memory.md, first part: the extractor's form of a segment (R47), and where a write of the segment meets the
capacity (R41).
-/

namespace Sys2Proof.Machine

/-- Settles O43: a position is a bit of a byte, and where the segment lies in that byte the next one is not asked for. -/
theorem segmentIsExtracted : Obligations.SegmentIsExtracted := by
  intro m p w _ hw
  have hs : p % 8 ≤ 7 := by omega
  have hp : pos (p / 8) (p % 8) = p := Nat.div_add_mod p 8
  refine ⟨?_, fun hsingle => ?_⟩
  · have hseg := m.seg_pos (boff := p / 8) hs hw fun _ => rfl
    rwa [hp] at hseg
  · have hseg := m.seg_pos (boff := p / 8) (lo := 0) hs hw fun hstraddle => absurd hsingle (Nat.not_le.2 hstraddle)
    rwa [hp] at hseg

/-- Within a stream that fits its capacity, a write at or below L is StreamFull exactly at or past the capacity (R41). -/
theorem memWrite_eq_streamFull_iff {i : Nat} {v : Byte} {s : State} (hi : i ≤ s.stream.len)
    (hfits : s.stream.len ≤ s.params.streamCapacity) :
    memWrite i v s = .error .streamFull ↔ s.params.streamCapacity ≤ i := by
  refine ⟨fun h => ?_, fun hcap => memWrite_eq_error.2 (.inr ⟨by omega, by omega, rfl⟩)⟩
  obtain ⟨-, heq, hcap⟩ := memWrite_eq_error_of_le hi h
  omega

/-- Two writes, the first of which replaces a byte, are StreamFull exactly where the second one is. -/
theorem memWrites_pair_eq_streamFull_iff {i : Nat} {a b : Byte} {s : State} (hwf : s.stream.wf = true)
    (hi : i < s.stream.len) (hfits : s.stream.len ≤ s.params.streamCapacity) :
    memWrites [(i, a), (i + 1, b)] s = .error .streamFull ↔ s.params.streamCapacity ≤ i + 1 := by
  have hfirst : memWrite i a s = .ok ((s.setStream (s.stream.put i a)).addAccess (.write i a)) :=
    memWrite_eq_ok.2 ⟨hi.le, by omega, rfl⟩
  have hlen : (s.stream.put i a).len = s.stream.len := Memory.len_put_lt a hwf hi
  simp only [memWrites_cons_eq_error (ws := [(i + 1, b)]), memWrites_singleton_eq_error, hfirst, reduceCtorEq,
    false_or, Except.ok.injEq, exists_eq_left']
  exact memWrite_eq_streamFull_iff (by simpa [hlen] using hi) (by simpa [hlen] using hfits)

/-- The writes of a segment are StreamFull exactly where the byte of its last bit lies at or past the capacity; `u` is `s`
with its accesses up to the writes. -/
theorem Inv.segmentWrites_eq_streamFull_iff {s u : State} {v : Byte} (h : Inv s) (hb : s.regs.bstate = .bound)
    (hp : u.params = s.params) (hm : u.stream = s.stream) :
    memWrites (segmentWrites v s) u = .error .streamFull ↔
      s.params.streamCapacity ≤ endbyte s.regs.boff s.regs.s s.regs.w := by
  have hwpos := h.width_pos
  have hw := h.width_le
  have hs := s.regs.s_le
  have hfits : u.stream.len ≤ u.params.streamCapacity := by rw [hp, hm]; exact h.stream_fits
  by_cases hsw : s.regs.s + s.regs.w ≤ 8
  · have hend : endbyte s.regs.boff s.regs.s s.regs.w = s.regs.boff := by unfold endbyte pos; omega
    rw [(h.segmentWrites_of_single hb v hsw).1, memWrites_singleton_eq_error,
      memWrite_eq_streamFull_iff (by rw [hm]; exact h.boff_le_len) hfits, hend, hp]
  · rw [Nat.not_le] at hsw
    have hend : endbyte s.regs.boff s.regs.s s.regs.w = s.regs.boff + 1 := by unfold endbyte pos; omega
    have hlt : s.regs.boff < u.stream.len := by rw [hm]; exact h.boff_lt_len (by omega)
    rw [segmentWrites_of_straddle v (h.empty_eq_false_of_straddle hb hsw) hsw,
      memWrites_pair_eq_streamFull_iff (by rw [hm]; exact h.stream_wf) hlt hfits, hend, hp]

/-- SET of a value of WIDTH bits writes the segment (R89). -/
theorem execSet_of_lt {v : Nat} {s : State} (hb : s.regs.bstate = .bound) (hv : v < 2 ^ s.regs.w) :
    execSet v s = writeSegment (BitVec.ofNat 8 v) s := by
  simp [execSet, bindingError_eq_none.2 hb, tooWide, hv]

/-- Settles O23: SET of a value that fits faults as its writes do. -/
theorem setFaultsExactlyBeyondTheCapacity : Obligations.SetFaultsExactlyBeyondTheCapacity := by
  intro v s h hb hv
  change execSet v s = .fault .streamFull ↔ _
  rw [execSet_of_lt hb hv, writeSegment_eq_fault]
  exact h.segmentWrites_eq_streamFull_iff hb (by split <;> rfl) (by split <;> rfl)

end Sys2Proof.Machine
end

section
/-!
PROOFS of 20_memory.md, second part: the accesses of each command (R38, R53). A command that neither opens the stream nor
writes the segment only reads (`ReadsOnly`), INIT reads after it opens, and SET and SETS are rejected or write the segment.
-/

namespace Sys2Proof.Machine

/-- `t` has the stream of `s`, and the record of `s` with at most `n` more reads. -/
structure ReadsOnly (n : Nat) (s t : State) : Prop where
  stream_eq : t.stream = s.stream
  accesses_eq : ∃ is : List Nat, is.length ≤ n ∧ t.accesses = s.accesses ++ is.map .read

/-- Whatever state `o` answers is reached from `s` by at most `n` reads. -/
def AnswersReading (n : Nat) (s : State) (o : Host.Outcome State Fault Refusal) : Prop :=
  ∀ t : State, o = .next t → ReadsOnly n s t

/-! The shared operations. -/

theorem ReadsOnly.refl (n : Nat) (s : State) : ReadsOnly n s s := ⟨rfl, [], Nat.zero_le n, (List.append_nil _).symm⟩

theorem ReadsOnly.trans {m n : Nat} {s t u : State} (h1 : ReadsOnly m s t) (h2 : ReadsOnly n t u) :
    ReadsOnly (m + n) s u := by
  obtain ⟨hstream1, is, his, haccesses1⟩ := h1
  obtain ⟨hstream2, js, hjs, haccesses2⟩ := h2
  refine ⟨hstream2.trans hstream1, is ++ js, ?_, ?_⟩
  · rw [List.length_append]
    omega
  · rw [haccesses2, haccesses1, List.map_append, List.append_assoc]

theorem ReadsOnly.setRegs {n : Nat} {s t : State} (h : ReadsOnly n s t) (r : Regs) : ReadsOnly n s (t.setRegs r) :=
  ⟨h.stream_eq, h.accesses_eq⟩

theorem ReadsOnly.setResp {n : Nat} {s t : State} (h : ReadsOnly n s t) (r : Option Response) :
    ReadsOnly n s (t.setResp r) := ⟨h.stream_eq, h.accesses_eq⟩

theorem readsOnly_addAccess_read (i : Nat) (s : State) : ReadsOnly 1 s (s.addAccess (.read i)) :=
  ⟨rfl, [i], le_refl 1, rfl⟩

theorem readsOnly_of_memRead {i : Nat} {s t : State} {b : Option Byte} (h : memRead i s = (b, t)) :
    ReadsOnly 1 s t := by
  obtain rfl : s.addAccess (.read i) = t := congrArg Prod.snd h
  exact readsOnly_addAccess_read i s

theorem readsOnly_of_streamOpen {s t : State} {l : Option Nat} (n : Nat) (h : streamOpen s = (l, t)) :
    ReadsOnly n (s.addAccess .openStream) t := by
  obtain rfl : s.addAccess .openStream = t := congrArg Prod.snd h
  exact .refl n _

theorem readsOnly_nextCurb (b' : Nat) (s : State) : ReadsOnly 1 s (nextCurb b' s).2 := by
  unfold nextCurb
  split
  · exact .refl 1 s
  · exact readsOnly_addAccess_read b' s

theorem readsOnly_nextLow (b' s' w : Nat) (s : State) : ReadsOnly 1 s (nextLow b' s' w s).2 := by
  unfold nextLow
  split
  · exact readsOnly_addAccess_read (b' + 1) s
  · exact .refl 1 s

theorem answersReading_respond {n : Nat} {s t : State} (h : ReadsOnly n s t) (d : Byte) (k : BitVec 8)
    (str : StrBus) : AnswersReading n s (respond d k str t) := by
  intro u hu
  rw [respond_eq_next.1 hu]
  exact h.setResp _

theorem answersReading_raise {n : Nat} {s t : State} (h : ReadsOnly n s t) (e : Err) :
    AnswersReading n s (raise e t) := by
  intro u hu
  rw [raise_eq_next.1 hu]
  exact h.setResp _

theorem answersReading_fault (n : Nat) (s : State) (f : Fault) : AnswersReading n s (.fault f) := nofun

/-! The commands that do not write. -/

theorem execGet_answersReading (s : State) : AnswersReading 0 s (execGet s) := by
  unfold execGet
  split
  · exact answersReading_raise (.refl 0 s) _
  · exact answersReading_respond (.refl 0 s) _ _ _

theorem execGets_answersReading (s : State) : AnswersReading 0 s (execGets s) := by
  unfold execGets
  split
  · exact answersReading_raise (.refl 0 s) _
  · exact answersReading_respond (.refl 0 s) _ _ _

theorem execMask_answersReading (zl : Bool) (zc : Nat) (s : State) : AnswersReading 0 s (execMask zl zc s) := by
  have hdraw : ReadsOnly 0 s s.nextDraw := ⟨rfl, (ReadsOnly.refl 0 s).accesses_eq⟩
  unfold execMask
  split
  · exact answersReading_respond (.refl 0 s) _ _ _
  · exact answersReading_respond hdraw _ _ _

theorem execMvl_answersReading (s : State) : AnswersReading 1 s (execMvl s) := by
  unfold execMvl
  split
  · exact answersReading_raise (.refl 1 s) _
  · split_ifs
    · exact answersReading_raise (.refl 1 s) _
    · exact answersReading_respond ((ReadsOnly.refl 1 s).setRegs _) _ _ _
    · exact answersReading_fault 1 s _
    · split
      · exact answersReading_fault 1 s _
      · next hr => exact answersReading_respond ((readsOnly_of_memRead hr).setRegs _) _ _ _

/-- MVR reads at most the probed byte, the new current byte and the one after it. -/
theorem execMvr_answersReading (s : State) : AnswersReading 3 s (execMvr s) := by
  unfold execMvr
  split
  · exact answersReading_raise (.refl 3 s) _
  · split
    · exact answersReading_raise (.refl 3 s) _
    · split
      · next hr => exact answersReading_raise ((readsOnly_of_memRead hr).trans (.refl 2 _)) _
      · next hr =>
        have hprobe := readsOnly_of_memRead hr
        exact answersReading_respond (.setRegs (hprobe.trans
          ((readsOnly_nextCurb _ _).trans (readsOnly_nextLow _ _ _ _))) _) _ _ _

/-- INIT opens the stream and then reads at most byte 0. -/
theorem execInit_answersReading (wreq : Nat) (s : State) :
    AnswersReading 1 (s.addAccess .openStream) (execInit wreq s) := by
  unfold execInit
  split
  · next ho => exact answersReading_raise ((readsOnly_of_streamOpen 1 ho).setRegs _) _
  · next ho =>
    split
    · exact answersReading_respond ((readsOnly_of_streamOpen 1 ho).setRegs _) _ _ _
    · split
      · exact answersReading_fault 1 _ _
      · next hr =>
        have hread := (readsOnly_of_streamOpen 0 ho).trans (readsOnly_of_memRead hr)
        exact answersReading_respond (hread.setRegs _) _ _ _

/-! SET and SETS. -/

/-- SET and SETS raise an error or write the segment (R88, R89, R95). -/
theorem exec_set_or_sets_cases {i : Instr} (hi : IsSetOrSets i) (s : State) :
    (∃ e, exec i s = raise e s) ∨ ∃ v, exec i s = writeSegment v s := by
  rcases hi with ⟨x, rfl⟩ | ⟨n, rfl⟩
  · change (∃ e, execSet x s = raise e s) ∨ ∃ v, execSet x s = writeSegment v s
    unfold execSet
    split
    · exact .inl ⟨_, rfl⟩
    · split
      · exact .inl ⟨_, rfl⟩
      · exact .inr ⟨_, rfl⟩
  · change (∃ e, execSets n s = raise e s) ∨ ∃ v, execSets n s = writeSegment v s
    unfold execSets
    split
    · exact .inl ⟨_, rfl⟩
    · split
      · exact .inl ⟨_, rfl⟩
      · split
        · exact .inl ⟨_, rfl⟩
        · exact .inr ⟨_, rfl⟩

/-- The accesses of a segment write: the second byte is read where the segment straddles, then the writes (R53). -/
theorem writeSegment_accesses {v : Byte} {s t : State} (h : writeSegment v s = .next t) :
    t.accesses = s.accesses ++ ((if straddles s then [.read (s.regs.boff + 1)] else []) ++
      (segmentWrites v s).map fun x => .write x.1 x.2) := by
  obtain ⟨s', hwrites, rfl⟩ := writeSegment_eq_next.1 h
  rw [memWrites_eq hwrites]
  cases straddles s <;> simp

/-- The indices a segment write stores to (R90 to R92). -/
theorem segmentWrites_indices (v : Byte) (s : State) :
    (segmentWrites v s).map Prod.fst =
      if s.regs.empty then [0]
      else if s.regs.s + s.regs.w ≤ 8 then [s.regs.boff] else [s.regs.boff, s.regs.boff + 1] := by
  unfold segmentWrites single
  split_ifs <;> simp_all

theorem segmentWrites_length_le (v : Byte) (s : State) : (segmentWrites v s).length ≤ 2 := by
  unfold segmentWrites
  split_ifs <;> simp

/-- Settles O26: an error changes the response alone, and a segment write what its writes and `segmentRegs` change. -/
theorem segmentWriteFrame : Obligations.SegmentWriteFrame := by
  intro i s t hi h
  rcases exec_set_or_sets_cases hi s with ⟨e, he⟩ | ⟨v, hv⟩
  · rw [raise_eq_next.1 (he.symm.trans h)]
    exact ⟨fun _ _ => rfl, rfl, rfl, rfl, rfl, rfl, rfl, rfl, rfl⟩
  · obtain ⟨s', hwrites, rfl⟩ := writeSegment_eq_next.1 (hv.symm.trans h)
    have hbytes : ∀ a, a ∉ (segmentWrites v s).map Prod.fst → s'.stream.byteAt a = s.stream.byteAt a := by
      intro a ha
      rw [memWrites_byteAt_other hwrites ha]
      split <;> rfl
    rw [segmentWrites_indices] at hbytes
    refine ⟨hbytes, rfl, rfl, rfl, rfl, ?_⟩
    rw [memWrites_frame hwrites]
    split <;> exact ⟨rfl, rfl, rfl, rfl⟩

/-! Every command. -/

/-- The most reads of a command that neither opens the stream nor writes it. -/
def maxReads : Instr → Nat
  | .mvl => 1
  | .mvr => 3
  | _ => 0

theorem maxReads_le (i : Instr) : maxReads i ≤ 3 := by
  cases i <;> simp [maxReads]

/-- What an answered command does at the stream port: it only reads, or is an INIT, or writes the segment (R38). -/
theorem exec_access_cases {i : Instr} {s t : State} (h : exec i s = .next t) :
    ReadsOnly (maxReads i) s t ∨
    ((∃ w, i = .init w) ∧ ReadsOnly 1 (s.addAccess .openStream) t) ∨
    (IsSetOrSets i ∧ ∃ v, writeSegment v s = .next t) := by
  have hset (hi : IsSetOrSets i) : ReadsOnly 0 s t ∨ ∃ v, writeSegment v s = .next t := by
    rcases exec_set_or_sets_cases hi s with ⟨e, he⟩ | ⟨v, hv⟩
    · exact .inl (answersReading_raise (.refl 0 s) e t (he.symm.trans h))
    · exact .inr ⟨v, hv.symm.trans h⟩
  cases i with
  | init w => exact .inr (.inl ⟨⟨w, rfl⟩, execInit_answersReading w s t h⟩)
  | get => exact .inl (execGet_answersReading s t h)
  | gets => exact .inl (execGets_answersReading s t h)
  | set v => exact (hset (.inl ⟨v, rfl⟩)).imp_right fun hw => .inr ⟨.inl ⟨v, rfl⟩, hw⟩
  | sets n => exact (hset (.inr ⟨n, rfl⟩)).imp_right fun hw => .inr ⟨.inr ⟨n, rfl⟩, hw⟩
  | mvl => exact .inl (execMvl_answersReading s t h)
  | mvr => exact .inl (execMvr_answersReading s t h)
  | mask zl zc => exact .inl (execMask_answersReading zl zc s t h)

/-- Settles O41: a command that is not SET or SETS only reads, INIT after it opens the stream. -/
theorem onlySegmentWritesTouchTheStream : Obligations.OnlySegmentWritesTouchTheStream := by
  intro i s t hset hsets h
  rcases exec_access_cases h with ⟨hstream, is, -, hl⟩ | ⟨-, hstream, is, -, hl⟩ | ⟨⟨v, rfl⟩ | ⟨n, rfl⟩, -⟩
  · exact ⟨hstream, is.map .read, hl, by simp⟩
  · exact ⟨hstream, .openStream :: is.map .read, by simpa using hl, by simp⟩
  · exact absurd rfl (hset v)
  · exact absurd rfl (hsets n)

/-- Settles O42: a list of reads, an open and a read, or a read and the writes of a segment. -/
theorem accessesOfACommandAreBounded : Obligations.AccessesOfACommandAreBounded := by
  intro i s t h
  rcases exec_access_cases h with ⟨-, is, hn, hl⟩ | ⟨⟨w, rfl⟩, -, is, hn, hl⟩ | ⟨hi, v, hw⟩
  · refine ⟨is.map .read, hl, ?_, fun hnone => ?_, fun hmvl => ?_, by simp⟩
    · rw [List.length_map]
      exact hn.trans (maxReads_le i)
    · have h0 : maxReads i = 0 := by rcases hnone with rfl | rfl | ⟨zl, zc, rfl⟩ <;> rfl
      rw [List.eq_nil_of_length_eq_zero (by omega : is.length = 0), List.map_nil]
    · rw [hmvl] at hn
      simpa [maxReads] using hn
  · refine ⟨.openStream :: is.map .read, by simpa using hl, ?_, by simp, nofun, fun _ => ⟨w, rfl⟩⟩
    rw [List.length_cons, List.length_map]
    omega
  · refine ⟨_, writeSegment_accesses hw, ?_, ?_, ?_, ?_⟩
    · have hwrites := segmentWrites_length_le v s
      have hread : (if straddles s then [Access.read (s.regs.boff + 1)] else []).length ≤ 1 := by
        split <;> simp
      rw [List.length_append, List.length_map]
      omega
    · rcases hi with ⟨x, rfl⟩ | ⟨n, rfl⟩ <;> simp
    · rcases hi with ⟨x, rfl⟩ | ⟨n, rfl⟩ <;> simp
    · cases straddles s <;> simp

end Sys2Proof.Machine
end

section
/-!
PROOFS of 20_memory.md, third part: no input shortens a bound stream (R42). A write replaces or appends, every other input
leaves the stream, and new contents are refused while it is bound.
-/

namespace Sys2Proof.Machine

theorem Memory.len_le_len_foldl_put (ws : List (Nat × Byte)) (m : Memory) :
    m.len ≤ (ws.foldl (fun m x => m.put x.1 x.2) m).len := by
  induction ws generalizing m with
  | nil => exact le_refl _
  | cons w ws ih => exact (m.len_le_len_put w.1 w.2).trans (ih _)

theorem memWrites_len_le {ws : List (Nat × Byte)} {s t : State} (h : memWrites ws s = .ok t) :
    s.stream.len ≤ t.stream.len := by
  rw [memWrites_eq h]
  exact Memory.len_le_len_foldl_put ws s.stream

theorem exec_len_le {i : Instr} {s t : State} (h : exec i s = .next t) : s.stream.len ≤ t.stream.len := by
  rcases exec_access_cases h with hread | ⟨-, hread⟩ | ⟨-, v, hw⟩
  · rw [hread.stream_eq]
  · rw [hread.stream_eq]
    exact le_refl _
  · rw [writeSegment_stream hw]
    exact Memory.len_le_len_foldl_put _ _

theorem runCommand_len_le {c : Command} {s t : State} (h : runCommand c s = .next t) :
    s.stream.len ≤ t.stream.len := by
  unfold runCommand at h
  split at h
  · exact exec_len_le (s := present c s) h
  · rw [raise_eq_next.1 h]
    exact le_refl _

/-- The writes that reached the stream before a reset do not shorten it (R122). -/
theorem abortCommand_len_le {c : Command} {k : Nat} {s t : State} (h : abortCommand c k s = .next t) :
    s.stream.len ≤ t.stream.len := by
  unfold abortCommand at h
  split at h
  · cases h
    exact le_refl _
  · split at h
    · next s' hwrites =>
      cases h
      have hlen : (present c s).stream.len ≤ s'.stream.len := memWrites_len_le hwrites
      exact hlen
    · cases h

theorem takeInput_len_le {x : HostInput} {s t : State} (hb : s.regs.bstate = .bound)
    (h : takeInput x s = .next t) : s.stream.len ≤ t.stream.len := by
  cases x with
  | command c => exact runCommand_len_le h
  | reset => cases h; exact le_refl _
  | resetDuring c k => exact abortCommand_len_le h
  | loadStream bytes => simp [takeInput, loadStream, hb] at h

/-- Settles O40, by cases over the input the step takes. -/
theorem boundStreamNeverShrinks : Obligations.BoundStreamNeverShrinks := by
  intro s t hb h
  cases hq : s.inbox with
  | nil =>
    rw [step_idle hq] at h
    cases h
    exact le_refl _
  | cons x rest =>
    rw [step_input hq] at h
    exact takeInput_len_le (s := { s with inbox := rest }) hb h

end Sys2Proof.Machine
end

section
/-!
PROOFS of 30_encoding.md, first part: the fields of a command word as numbers (R60 to R62), the round trips between the
decoder and the encoder (R65), the words that are no command (R66), and the command a step runs (R58).
-/

namespace Sys2Proof.Machine

/-! The fields of a word. -/

theorem toNat_field (w : CmdWord) (lo n : Nat) : (w.extractLsb' lo n).toNat = w.toNat / 2 ^ lo % 2 ^ n := by
  rw [BitVec.extractLsb'_toNat, Nat.shiftRight_eq_div_pow]

theorem opcodeOf_eq (w : CmdWord) : opcodeOf w = w.toNat / 4096 := by
  have hw := w.isLt
  have hfield : opcodeOf w = w.toNat / 2 ^ 12 % 2 ^ 4 := toNat_field w 12 4
  omega

theorem lowNibbleOf_eq (w : CmdWord) : lowNibbleOf w = w.toNat % 16 := by
  have hfield : lowNibbleOf w = w.toNat / 2 ^ 0 % 2 ^ 4 := toNat_field w 0 4
  omega

theorem lowByteOf_eq (w : CmdWord) : lowByteOf w = w.toNat % 256 := by
  have hfield : lowByteOf w = w.toNat / 2 ^ 0 % 2 ^ 8 := toNat_field w 0 8
  omega

theorem zlOf_eq (w : CmdWord) : zlOf w = decide (w.toNat / 16 % 2 = 1) :=
  Nat.testBit_eq_decide_div_mod_eq

/-- The reserved bits from bit `lo` of the operand field up are 0 exactly when the field's number is below `2^lo`. -/
theorem toNat_reserved_eq_zero_iff (w : CmdWord) {lo n : Nat} (h : lo + n = 12) :
    (w.extractLsb' lo n).toNat = 0 ↔ w.toNat % 4096 < 2 ^ lo := by
  have h4096 : 2 ^ lo * 2 ^ n = 4096 := by rw [← Nat.pow_add, h]
  rw [toNat_field, ← Nat.mod_mul_right_div_self, h4096]
  exact Nat.div_eq_zero_iff_lt (Nat.two_pow_pos lo)

theorem whenZero_eq_ok {r : Nat} {i j : Instr} : whenZero r i = .ok j ↔ r = 0 ∧ i = j := by
  unfold whenZero
  split <;> simp [*]

theorem whenZero_eq_error {r : Nat} {i : Instr} : (∃ e, whenZero r i = .error e) ↔ r ≠ 0 := by
  unfold whenZero
  split <;> simp [*]

/-! The word of an opcode and an operand field. -/

theorem toNat_wordOf (op arg : Nat) : (wordOf op arg).toNat = 4096 * (op % 16) + arg % 4096 := by
  have harg : arg % 4096 < 2 ^ 12 := Nat.mod_lt _ (by omega)
  have happend : (wordOf op arg).toNat = (op % 16) <<< 12 ||| arg % 4096 := BitVec.toNat_append ..
  rw [happend, ← Nat.shiftLeft_add_eq_or_of_lt harg, Nat.shiftLeft_eq, Nat.mul_comm]

theorem wordOf_eq {w : CmdWord} {op arg : Nat} (hop : opcodeOf w = op) (harg : w.toNat % 4096 = arg) :
    wordOf op arg = w := by
  have hw := w.isLt
  rw [opcodeOf_eq] at hop
  apply BitVec.eq_of_toNat_eq
  rw [toNat_wordOf]
  omega

@[simp] theorem opcodeOf_wordOf (op arg : Nat) : opcodeOf (wordOf op arg) = op % 16 := by
  rw [opcodeOf_eq, toNat_wordOf]
  omega

theorem operand_wordOf (op arg : Nat) : (wordOf op arg).toNat % 4096 = arg % 4096 := by
  rw [toNat_wordOf]
  omega

theorem lowNibbleOf_wordOf (op arg : Nat) : lowNibbleOf (wordOf op arg) = arg % 16 := by
  rw [lowNibbleOf_eq, toNat_wordOf]
  omega

theorem lowByteOf_wordOf (op arg : Nat) : lowByteOf (wordOf op arg) = arg % 256 := by
  rw [lowByteOf_eq, toNat_wordOf]
  omega

theorem zlOf_wordOf (op arg : Nat) : zlOf (wordOf op arg) = decide (arg / 16 % 2 = 1) := by
  rw [zlOf_eq, toNat_wordOf]
  congr 2
  omega

theorem whenZero_wordOf {op arg lo n : Nat} {i j : Instr} (h : lo + n = 12) (harg : arg < 2 ^ lo) (hij : i = j) :
    whenZero ((wordOf op arg).extractLsb' lo n).toNat i = .ok j := by
  refine whenZero_eq_ok.2 ⟨?_, hij⟩
  rw [toNat_reserved_eq_zero_iff _ h, operand_wordOf]
  exact lt_of_le_of_lt (Nat.mod_le arg 4096) harg

/-! The decoder and the encoder. -/

/-- Settles O2, format by format: the operand fits below the reserved bits, and its fields are read back. -/
theorem decodeAfterEncode : Obligations.DecodeAfterEncode := by
  intro i hi
  cases i with
  | init wreq =>
    have hwreq : wreq ≤ 15 := of_decide_eq_true hi
    have hread : lowNibbleOf (wordOf 1 wreq) = wreq := by rw [lowNibbleOf_wordOf]; omega
    simp only [encode, decode, opcodeOf_wordOf]
    exact whenZero_wordOf rfl (by omega) (by rw [hread])
  | get => rfl
  | gets => rfl
  | set val8 =>
    have hval : val8 ≤ 255 := of_decide_eq_true hi
    have hread : lowByteOf (wordOf 4 val8) = val8 := by rw [lowByteOf_wordOf]; omega
    simp only [encode, decode, opcodeOf_wordOf]
    exact whenZero_wordOf rfl (by omega) (by rw [hread])
  | sets len =>
    have hlen : len ≤ 255 := of_decide_eq_true hi
    have hread : lowByteOf (wordOf 5 len) = len := by rw [lowByteOf_wordOf]; omega
    simp only [encode, decode, opcodeOf_wordOf]
    exact whenZero_wordOf rfl (by omega) (by rw [hread])
  | mvl => rfl
  | mvr => rfl
  | mask zl zc =>
    have hzc : zc ≤ 15 := of_decide_eq_true hi
    have hside : (if zl then 16 else 0) = 16 * zl.toNat := by cases zl <;> rfl
    have hzl : zl.toNat ≤ 1 := Bool.toNat_le zl
    have hreadZc : lowNibbleOf (wordOf 8 (16 * zl.toNat + zc)) = zc := by rw [lowNibbleOf_wordOf]; omega
    have hreadZl : zlOf (wordOf 8 (16 * zl.toNat + zc)) = zl := by
      rw [zlOf_wordOf, show (16 * zl.toNat + zc) / 16 % 2 = zl.toNat by omega]
      cases zl <;> rfl
    simp only [encode, decode, opcodeOf_wordOf, hside]
    exact whenZero_wordOf rfl (by omega) (by rw [hreadZc, hreadZl])

/-- A command read under reserved bits of 0 is well-formed and encodes the word, where a small operand says so. -/
theorem encode_of_whenZero {w : CmdWord} {lo n : Nat} {i j : Instr} (h : lo + n = 12)
    (hj : whenZero (w.extractLsb' lo n).toNat i = .ok j)
    (hi : w.toNat % 4096 < 2 ^ lo → i.wellFormed = true ∧ encode i = w) : j.wellFormed = true ∧ encode j = w := by
  obtain ⟨hreserved, rfl⟩ := whenZero_eq_ok.1 hj
  exact hi ((toNat_reserved_eq_zero_iff w h).1 hreserved)

/-- Settles O3, opcode by opcode: the reserved bits are 0, so the fields that are read make up the whole operand. -/
theorem encodeAfterDecode : Obligations.EncodeAfterDecode := by
  intro w i h
  have hnibble := lowNibbleOf_eq w
  have hbyte := lowByteOf_eq w
  have hside : (if zlOf w then 16 else 0) = 16 * (w.toNat / 16 % 2) := by
    rw [zlOf_eq]
    rcases Nat.mod_two_eq_zero_or_one (w.toNat / 16) with hbit | hbit <;> rw [hbit] <;> rfl
  unfold decode at h
  split at h
  case h_1 hop => exact encode_of_whenZero rfl h fun _ => ⟨decide_eq_true (by omega), wordOf_eq hop (by omega)⟩
  case h_2 hop => exact encode_of_whenZero rfl h fun _ => ⟨rfl, wordOf_eq hop (by omega)⟩
  case h_3 hop => exact encode_of_whenZero rfl h fun _ => ⟨rfl, wordOf_eq hop (by omega)⟩
  case h_4 hop => exact encode_of_whenZero rfl h fun _ => ⟨decide_eq_true (by omega), wordOf_eq hop (by omega)⟩
  case h_5 hop => exact encode_of_whenZero rfl h fun _ => ⟨decide_eq_true (by omega), wordOf_eq hop (by omega)⟩
  case h_6 hop => exact encode_of_whenZero rfl h fun _ => ⟨rfl, wordOf_eq hop (by omega)⟩
  case h_7 hop => exact encode_of_whenZero rfl h fun _ => ⟨rfl, wordOf_eq hop (by omega)⟩
  case h_8 hop => exact encode_of_whenZero rfl h fun _ => ⟨decide_eq_true (by omega), wordOf_eq hop (by omega)⟩
  case h_9 => cases h

/-- Settles O1: the nine words are decoded. -/
theorem exampleWordsDecode : Obligations.ExampleWordsDecode := by
  unfold Obligations.ExampleWordsDecode
  decide

/-! Words that are no command (R66). -/

/-- The number above every operand that the format of the opcode `op` admits; 0 for an opcode of no command. -/
def operandLimit (op : Nat) : Nat :=
  match op with
  | 1 => 16
  | 2 | 3 | 6 | 7 => 1
  | 4 | 5 => 256
  | 8 => 32
  | _ => 0

theorem whenZero_reserved_eq_error {w : CmdWord} {lo n : Nat} {i : Instr} (h : lo + n = 12) :
    (∃ e, whenZero (w.extractLsb' lo n).toNat i = .error e) ↔ 2 ^ lo ≤ w.toNat % 4096 := by
  rw [whenZero_eq_error, Ne, toNat_reserved_eq_zero_iff w h, Nat.not_lt]

/-- R66: a word is illegal when its operand reaches the limit of its opcode. -/
theorem decode_eq_error_iff (w : CmdWord) :
    (∃ e, decode w = .error e) ↔ operandLimit (opcodeOf w) ≤ w.toNat % 4096 := by
  unfold decode
  split
  case h_9 => simp [operandLimit]
  all_goals
    next hop =>
    rw [hop]
    exact whenZero_reserved_eq_error rfl

/-- The limits, opcode by opcode, are the reserved bits of R66. -/
theorem operandLimit_le_iff (op arg : Nat) :
    operandLimit op ≤ arg ↔
      (op = 0 ∨ 9 ≤ op ∨ ((op = 2 ∨ op = 3 ∨ op = 6 ∨ op = 7) ∧ arg ≠ 0) ∨ (op = 1 ∧ 16 ≤ arg) ∨
        ((op = 4 ∨ op = 5) ∧ 256 ≤ arg) ∨ (op = 8 ∧ 32 ≤ arg)) := by
  unfold operandLimit
  split
  case h_9 =>
    simp only [imp_false] at *
    omega
  all_goals simp [Nat.one_le_iff_ne_zero]

/-! The command a step runs (R58). -/

theorem step_command {s : State} {c : Command} {rest : List HostInput} (h : s.inbox = .command c :: rest) :
    step s = runCommand c { s with inbox := rest } := step_input h

theorem runCommand_of_decode {c : Command} {i : Instr} (s : State) (h : decode c.word = .ok i) :
    runCommand c s = exec i (present c s) := by
  simp only [runCommand, h]

theorem runCommand_of_illegal {c : Command} {e : IllegalWord} (s : State) (h : decode c.word = .error e) :
    runCommand c s = raise .illegalCommand (present c s) := by
  simp only [runCommand, h]

/-- Settles O4: a word is illegal when its operand reaches the limit of its opcode, and an illegal command is raised. -/
theorem illegalWordsAnswerIllegalCommand : Obligations.IllegalWordsAnswerIllegalCommand := by
  intro s c rest hq
  constructor
  · rw [decode_eq_error_iff, opcodeOf_eq]
    exact operandLimit_le_iff _ _
  · rintro ⟨e, he⟩
    rw [step_command hq, runCommand_of_illegal _ he]
    rfl

/-- Settles O5: the step takes the command off the queue, and the decoded command runs. -/
theorem stepRunsTheDecodedCommand : Obligations.StepRunsTheDecodedCommand := by
  intro s i
  constructor
  · intro c rest hq hi
    rw [step_command hq, runCommand_of_decode _ hi]
    rfl
  · intro w hw
    rw [step_command (State.withFetchWord_inbox s 16 w),
      runCommand_of_decode (c := ⟨BitVec.ofNat 16 (w % 2 ^ 16), s.input⟩) _ hw]
    rfl

end Sys2Proof.Machine
end

section
/-!
PROOFS of 30_encoding.md, second part: the one response that every answered command leaves (R68, R108).
-/

namespace Sys2Proof.Machine

/-- Settles O10: the responses are written out in `okResponse`, `errResponse` and `Err.code`. -/
theorem responsesCarryTheirCodes : Obligations.ResponsesCarryTheirCodes :=
  ⟨fun _ _ _ => rfl, rfl, rfl, rfl, rfl, rfl⟩

/-- What R68 and R108 let the command `i` respond. -/
def AllowedResponse (i : Instr) (r : Response) : Prop :=
  (r.ok = true ↔ r.err = 0) ∧ r.err.toNat ≤ 5 ∧
    (r.rdata ≠ 0 → i = .get ∨ ∃ zl zc, i = .mask zl zc) ∧
    ((r.rlen ≠ 0 ∨ r.rstr ≠ 0) → i = .gets)

/-- Whatever state `o` answers holds a response that is allowed to the command `i`. -/
def RespondsAs (i : Instr) (o : Host.Outcome State Fault Refusal) : Prop :=
  ∀ t : State, o = .next t → ∃ r : Response, t.resp = some r ∧ AllowedResponse i r

theorem allowedResponse_error (i : Instr) (e : Err) : AllowedResponse i (errResponse e) := by
  cases e <;> simp [AllowedResponse, errResponse, Err.code]

theorem allowedResponse_done (i : Instr) : AllowedResponse i (okResponse 0 0 0) := by
  simp [AllowedResponse, okResponse]

theorem allowedResponse_byte {i : Instr} (hi : i = .get ∨ ∃ zl zc, i = .mask zl zc) (d : Byte) :
    AllowedResponse i (okResponse d 0 0) :=
  ⟨by simp [okResponse], by simp [okResponse], fun _ => hi, by simp [okResponse]⟩

theorem allowedResponse_string (n : BitVec 8) (str : StrBus) : AllowedResponse .gets (okResponse 0 n str) := by
  simp [AllowedResponse, okResponse]

section
variable {i : Instr}

theorem respondsAs_raise (e : Err) (s : State) : RespondsAs i (raise e s) := by
  intro t ht
  rw [raise_eq_next.1 ht]
  exact ⟨_, rfl, allowedResponse_error i e⟩

theorem respondsAs_respond {d : Byte} {n : BitVec 8} {str : StrBus} (h : AllowedResponse i (okResponse d n str))
    (s : State) : RespondsAs i (respond d n str s) := by
  intro t ht
  rw [respond_eq_next.1 ht]
  exact ⟨_, rfl, h⟩

theorem respondsAs_done (s : State) : RespondsAs i (respond 0 0 0 s) := respondsAs_respond (allowedResponse_done i) s

theorem respondsAs_fault (f : Fault) : RespondsAs i (.fault f) := nofun

theorem respondsAs_writeSegment (v : Byte) (s : State) : RespondsAs i (writeSegment v s) := by
  intro t ht
  obtain ⟨s', -, rfl⟩ := writeSegment_eq_next.1 ht
  exact ⟨_, rfl, allowedResponse_done i⟩

end

/-! The commands, one by one. -/

theorem execInit_respondsAs (wreq : Nat) (s : State) : RespondsAs (.init wreq) (execInit wreq s) := by
  unfold execInit
  split
  · exact respondsAs_raise _ _
  · split
    · exact respondsAs_done _
    · split
      · exact respondsAs_fault _
      · exact respondsAs_done _

theorem execGet_respondsAs (s : State) : RespondsAs .get (execGet s) := by
  unfold execGet
  split
  · exact respondsAs_raise _ _
  · exact respondsAs_respond (allowedResponse_byte (.inl rfl) _) _

theorem execGets_respondsAs (s : State) : RespondsAs .gets (execGets s) := by
  unfold execGets
  split
  · exact respondsAs_raise _ _
  · exact respondsAs_respond (allowedResponse_string _ _) _

theorem execSetOrSets_respondsAs {i : Instr} (hi : IsSetOrSets i) (s : State) : RespondsAs i (exec i s) := by
  rcases exec_set_or_sets_cases hi s with ⟨e, he⟩ | ⟨v, hv⟩
  · rw [he]
    exact respondsAs_raise e s
  · rw [hv]
    exact respondsAs_writeSegment v s

theorem execMvl_respondsAs (s : State) : RespondsAs .mvl (execMvl s) := by
  unfold execMvl
  split
  · exact respondsAs_raise _ _
  · split_ifs
    · exact respondsAs_raise _ _
    · exact respondsAs_done _
    · exact respondsAs_fault _
    · split
      · exact respondsAs_fault _
      · exact respondsAs_done _

theorem execMvr_respondsAs (s : State) : RespondsAs .mvr (execMvr s) := by
  unfold execMvr
  split
  · exact respondsAs_raise _ _
  · split
    · exact respondsAs_raise _ _
    · split
      · exact respondsAs_raise _ _
      · exact respondsAs_done _

theorem execMask_respondsAs (zl : Bool) (zc : Nat) (s : State) : RespondsAs (.mask zl zc) (execMask zl zc s) := by
  have hbyte := allowedResponse_byte (i := .mask zl zc) (.inr ⟨zl, zc, rfl⟩)
  unfold execMask
  split
  · exact respondsAs_respond (hbyte _) _
  · exact respondsAs_respond (hbyte _) _

/-- Settles O33, command by command. -/
theorem answeredCommandLeavesOneResponse : Obligations.AnsweredCommandLeavesOneResponse := by
  intro i s
  change RespondsAs i (exec i s)
  cases i with
  | init wreq => exact execInit_respondsAs wreq s
  | get => exact execGet_respondsAs s
  | gets => exact execGets_respondsAs s
  | set val8 => exact execSetOrSets_respondsAs (.inl ⟨val8, rfl⟩) s
  | sets len => exact execSetOrSets_respondsAs (.inr ⟨len, rfl⟩) s
  | mvl => exact execMvl_respondsAs s
  | mvr => exact execMvr_respondsAs s
  | mask zl zc => exact execMask_respondsAs zl zc s

end Sys2Proof.Machine
end

section
/-!
PROOFS of 30_encoding.md, third part: the string operand (R67). Putting another string at the port commutes with every
operation of a command (`withCstr`), so that only the check of SETS can tell the two strings apart.
-/

namespace Sys2Proof.Machine

/-- The state with the string `x` at the port. -/
def State.withCstr (x : StrBus) (s : State) : State := { s with input := { s.input with cstr := x } }

/-- The outcome with the string `x` put at the port of the state it answers. -/
def outcomeWithCstr (x : StrBus) : Host.Outcome State Fault Refusal → Host.Outcome State Fault Refusal
  | .next t => .next (t.withCstr x)
  | .fault f => .fault f
  | .refused r => .refused r

section
variable (x : StrBus) (s : State)

@[simp] theorem State.withCstr_regs : (s.withCstr x).regs = s.regs := rfl

/-! The shared operations. -/

theorem bindingError_withCstr : bindingError (s.withCstr x) = bindingError s := rfl

theorem streamOpen_withCstr : streamOpen (s.withCstr x) = ((streamOpen s).1, (streamOpen s).2.withCstr x) := rfl

theorem memRead_withCstr (i : Nat) : memRead i (s.withCstr x) = ((memRead i s).1, (memRead i s).2.withCstr x) := rfl

theorem nextCurb_withCstr (b' : Nat) :
    nextCurb b' (s.withCstr x) = ((nextCurb b' s).1, (nextCurb b' s).2.withCstr x) := by
  rw [nextCurb_eq, nextCurb_eq]
  rfl

theorem nextLow_withCstr (b' s' w : Nat) :
    nextLow b' s' w (s.withCstr x) = ((nextLow b' s' w s).1, (nextLow b' s' w s).2.withCstr x) := by
  rw [nextLow_eq, nextLow_eq]
  rfl

theorem memWrite_withCstr (i : Nat) (v : Byte) :
    memWrite i v (s.withCstr x) = (memWrite i v s).map (State.withCstr x) := by
  simp only [memWrite, apply_ite (Except.map (State.withCstr x))]
  rfl

theorem memWrites_withCstr (ws : List (Nat × Byte)) :
    memWrites ws (s.withCstr x) = (memWrites ws s).map (State.withCstr x) := by
  induction ws generalizing s with
  | nil => rfl
  | cons w ws ih =>
    obtain ⟨i, v⟩ := w
    rw [memWrites_cons, memWrites_cons, memWrite_withCstr]
    cases memWrite i v s with
    | error f => rfl
    | ok s' => exact ih s'

theorem writeSegment_withCstr (v : Byte) : writeSegment v (s.withCstr x) = outcomeWithCstr x (writeSegment v s) := by
  have hread : (if straddles (s.withCstr x) then (readOrZero ((s.withCstr x).regs.boff + 1) (s.withCstr x)).2
      else s.withCstr x) = (if straddles s then (readOrZero (s.regs.boff + 1) s).2 else s).withCstr x := by
    rw [apply_ite (State.withCstr x)]
    rfl
  have hwrites : segmentWrites v (s.withCstr x) = segmentWrites v s := rfl
  simp only [writeSegment, hread, hwrites, memWrites_withCstr]
  cases memWrites (segmentWrites v s) _ <;> rfl

/-! The commands, one by one. -/

theorem execInit_withCstr (wreq : Nat) : execInit wreq (s.withCstr x) = outcomeWithCstr x (execInit wreq s) := by
  unfold execInit
  rw [streamOpen_withCstr]
  rcases streamOpen s with ⟨_ | len, s1⟩
  · rfl
  · simp only [memRead_withCstr]
    split
    · rfl
    · rcases memRead 0 s1 with ⟨_ | b, s2⟩ <;> rfl

theorem execGet_withCstr : execGet (s.withCstr x) = outcomeWithCstr x (execGet s) := by
  unfold execGet
  rw [bindingError_withCstr]
  split <;> rfl

theorem execGets_withCstr : execGets (s.withCstr x) = outcomeWithCstr x (execGets s) := by
  unfold execGets
  rw [bindingError_withCstr]
  split <;> rfl

theorem execSet_withCstr (v : Nat) : execSet v (s.withCstr x) = outcomeWithCstr x (execSet v s) := by
  simp only [execSet, bindingError_withCstr, writeSegment_withCstr]
  split
  · rfl
  · rw [apply_ite (outcomeWithCstr x)]
    rfl

theorem execMvl_withCstr : execMvl (s.withCstr x) = outcomeWithCstr x (execMvl s) := by
  simp only [execMvl, bindingError_withCstr, State.withCstr_regs, memRead_withCstr]
  split
  · rfl
  · rcases memRead (s.regs.boff - 1) s with ⟨_ | b, s1⟩
    · simp only [apply_ite (outcomeWithCstr x)]
      rfl
    · simp only [apply_ite (outcomeWithCstr x)]
      rfl

theorem execMvr_withCstr : execMvr (s.withCstr x) = outcomeWithCstr x (execMvr s) := by
  simp only [execMvr, bindingError_withCstr, State.withCstr_regs, memRead_withCstr]
  split
  · rfl
  · rcases memRead (endbyte s.regs.boff s.regs.s s.regs.w) s with ⟨_ | b, s1⟩
    · rw [apply_ite (outcomeWithCstr x)]
      rfl
    · simp only [nextCurb_withCstr, nextLow_withCstr]
      rw [apply_ite (outcomeWithCstr x)]
      rfl

theorem execMask_withCstr (zl : Bool) (zc : Nat) :
    execMask zl zc (s.withCstr x) = outcomeWithCstr x (execMask zl zc s) := by
  unfold execMask
  split <;> rfl

end

/-! SETS: the check of the string (R95). -/

theorem strValue_congr {a b : StrBus} {n : Nat} (h : ∀ k < n, strChar a k = strChar b k) :
    strValue a n = strValue b n := by
  induction n with
  | zero => rfl
  | succ n ih => simp only [strValue, ih fun k hk => h k (by omega), h n (by omega)]

theorem stringOperand_withCstr {x : StrBus} {s : State} {len : Nat}
    (h : ∀ k < len, strChar x k = strChar s.input.cstr k) : stringOperand len (s.withCstr x) = stringOperand len s := by
  have hx : stringOperand len (s.withCstr x) = if len = s.regs.w then strValue x s.regs.w else none := rfl
  rw [hx, stringOperand]
  split
  · next hlen => exact strValue_congr (hlen ▸ h)
  · rfl

theorem execSets_withCstr {x : StrBus} {s : State} {len : Nat} (h : ∀ k < len, strChar x k = strChar s.input.cstr k) :
    execSets len (s.withCstr x) = outcomeWithCstr x (execSets len s) := by
  simp only [execSets, bindingError_withCstr, stringOperand_withCstr h, writeSegment_withCstr]
  split
  · rfl
  · split
    · rfl
    · rw [apply_ite (outcomeWithCstr x)]
      rfl

/-- R67 for every command: the slots that SETS reads are those below LEN. -/
theorem exec_withCstr {i : Instr} {x : StrBus} {s : State}
    (h : ∀ n, i = .sets n → ∀ k < n, strChar x k = strChar s.input.cstr k) :
    exec i (s.withCstr x) = outcomeWithCstr x (exec i s) := by
  cases i with
  | init wreq => exact execInit_withCstr x s wreq
  | get => exact execGet_withCstr x s
  | gets => exact execGets_withCstr x s
  | set val8 => exact execSet_withCstr x s val8
  | sets len => exact execSets_withCstr (h len rfl)
  | mvl => exact execMvl_withCstr x s
  | mvr => exact execMvr_withCstr x s
  | mask zl zc => exact execMask_withCstr x s zl zc

/-- Settles O48: the string is read by SETS alone, in the slots below LEN. -/
theorem stringOperandIsReadOnlyBySets : Obligations.StringOperandIsReadOnlyBySets := by
  intro i s x h
  have hslots : ∀ n, i = .sets n → ∀ k < n, strChar x k = strChar s.input.cstr k := by
    rintro n rfl
    rcases h with hno | ⟨m, hm, hk⟩
    · exact absurd rfl (hno n)
    · cases hm
      exact hk
  refine (exec_withCstr hslots).trans ?_
  cases exec i s <;> rfl

end Sys2Proof.Machine
end

section
/-!
PROOFS of 30_encoding.md, fourth part: the host's side, which maps software arguments onto the operand fields (R64) and
assembles lines (R69).
-/

namespace Sys2Proof.Machine

/-! The slots of a string operand (R62). -/

/-- A byte above the lowest is found in the bits above it. -/
theorem extractLsb'_append_byte_succ {n : Nat} (hi : BitVec n) (lo : Byte) (k : Nat) :
    (hi ++ lo).extractLsb' (8 * (k + 1)) 8 = hi.extractLsb' (8 * k) 8 :=
  BitVec.extractLsb'_append_eq_of_le (by omega)

theorem strChar_busOfString (cs : List Byte) {k : Nat} (hk : k < 8) : strChar (busOfString cs) k = cs.getD k 0 := by
  unfold strChar busOfString
  interval_cases k
  all_goals
    simp only [extractLsb'_append_byte_succ, Nat.mul_zero, BitVec.extractLsb'_append_eq_right,
      BitVec.extractLsb'_eq_self]

/-! The mapping of software arguments (R64). -/

theorem wreqOfWidth_le (x : Int) : wreqOfWidth x ≤ 15 := by
  unfold wreqOfWidth
  split <;> omega

theorem clampw_wreqOfWidth (x : Int) : (clampw (wreqOfWidth x) : Int) = if 1 ≤ x ∧ x ≤ 8 then x else 8 := by
  unfold clampw wreqOfWidth
  split_ifs <;> omega

theorem lenOfString_le (cs : List Byte) : lenOfString cs ≤ 255 := Nat.min_le_right _ _

theorem lenOfString_of_le {cs : List Byte} (h : cs.length ≤ 255) : lenOfString cs = cs.length := Nat.min_eq_left h

theorem lenOfString_of_gt {cs : List Byte} (h : 255 < cs.length) : lenOfString cs = 255 := Nat.min_eq_right h.le

/-- SETS rejects every length but WIDTH (R95). -/
theorem execSets_of_len_ne {n : Nat} {s : State} (hb : s.regs.bstate = .bound) (hn : n ≠ s.regs.w) :
    execSets n s = .next { s with resp := some (errResponse .invalidSegmentValue) } := by
  have hnone : stringOperand n s = none := if_neg hn
  simp only [execSets, bindingError_eq_none.2 hb, hnone]
  rfl

/-- Settles O49: a length of 255 is no WIDTH. -/
theorem hostMappingLosesNothing : Obligations.HostMappingLosesNothing := by
  refine ⟨fun x => ⟨wreqOfWidth_le x, clampw_wreqOfWidth x⟩, fun cs => ?_⟩
  refine ⟨lenOfString_le cs, lenOfString_of_le, fun k => strChar_busOfString cs, fun hlong s hinv hb => ?_⟩
  have hw := hinv.width_le
  exact execSets_of_len_ne hb (by rw [lenOfString_of_gt hlong]; omega)

/-! The assembler (R69). -/

/-- Whatever word `o` emits is the word of a well-formed command. -/
def EmitsEncoding (o : Option (CmdWord × StrBus)) : Prop :=
  ∀ (w : CmdWord) (str : StrBus), o = some (w, str) → ∃ i : Instr, i.wellFormed = true ∧ encode i = w

theorem emitsEncoding_none : EmitsEncoding none := nofun

theorem emit_emitsEncoding (i : Instr) (bus : StrBus) (rest : List Char) : EmitsEncoding (emit i bus rest) := by
  intro w str h
  unfold emit at h
  split at h
  · next hi =>
    cases h
    exact ⟨i, (Bool.and_eq_true_iff.1 hi).2, rfl⟩
  · cases h

theorem emitNumber_emitsEncoding (f : Nat → Instr) (o : Option (Nat × List Char)) :
    EmitsEncoding (emitNumber f o) := by
  cases o with
  | none => exact emitsEncoding_none
  | some p => exact emit_emitsEncoding (f p.1) 0 p.2

theorem emitQuoted_emitsEncoding (cs : List Char) : EmitsEncoding (emitQuoted cs) := by
  unfold emitQuoted
  split
  · exact emitsEncoding_none
  · split
    · split
      · exact emit_emitsEncoding _ _ _
      · exact emitsEncoding_none
    · exact emitsEncoding_none

theorem emitMask_emitsEncoding (cs : List Char) : EmitsEncoding (emitMask cs) := by
  unfold emitMask
  split
  · exact emitsEncoding_none
  · split
    · split_ifs
      · exact emitNumber_emitsEncoding _ _
      · exact emitNumber_emitsEncoding _ _
      · exact emitsEncoding_none
    · exact emitsEncoding_none

theorem assembleCommand_emitsEncoding (line : List Char) : EmitsEncoding (assembleCommand line) := by
  unfold assembleCommand
  dsimp only
  split_ifs
  · exact emitNumber_emitsEncoding _ _
  · exact emit_emitsEncoding _ _ _
  · exact emit_emitsEncoding _ _ _
  · exact emitNumber_emitsEncoding _ _
  · exact emitQuoted_emitsEncoding _
  · exact emit_emitsEncoding _ _ _
  · exact emit_emitsEncoding _ _ _
  · exact emitMask_emitsEncoding _
  · exact emitsEncoding_none

/-- Settles O50: an emitted word encodes a well-formed command, and so decodes to it. -/
theorem assembledWordsAreLegal : Obligations.AssembledWordsAreLegal := by
  intro line w str h
  obtain ⟨i, hi, rfl⟩ := assembleCommand_emitsEncoding line w str h
  exact ⟨i, decodeAfterEncode i hi, hi⟩

end Sys2Proof.Machine
end

section
/-!
PROOFS of 40_datapath_mask.md: the mask generator and MASK (R70 to R72), the position decoder (R74), and what the
inserters put into the bytes of a segment and leave of them (R79).
-/

namespace Sys2Proof.Machine

/-! MASK (R72). -/

theorem exec_mask_of_le (zl : Bool) {zc : Nat} (h : zc ≤ 8) (s : State) :
    exec (.mask zl zc) s = respond (maskGen zl zc) 0 0 s := if_pos h

theorem exec_mask_of_gt (zl : Bool) {zc : Nat} (h : 8 < zc) (s : State) :
    exec (.mask zl zc) s = respond (Config.maskInvalid s.draws zl zc) 0 0 s.nextDraw := if_neg (Nat.not_le.2 h)

/-- Settles O16: the byte is the mask generator's, which is known bit by bit. -/
theorem maskAnswersClusteredZeros : Obligations.MaskAnswersClusteredZeros :=
  fun zl zc s hzc => ⟨maskGen zl zc, exec_mask_of_le zl hzc s, fun _ hj => getLsbD_maskGen zl hj⟩

/-- Settles O17: a count above 8 takes the branch of the draw. -/
theorem maskDrawsAByteBeyondEight : Obligations.MaskDrawsAByteBeyondEight :=
  fun zl _ s hzc => exec_mask_of_gt zl hzc s

/-! The mask generator (R71). -/

theorem maskGen_true_eq_ones (n : Nat) : maskGen true n = BitVec.ofNat 8 (ones (8 - n)) := by
  apply BitVec.eq_of_getLsbD_eq
  intro k hk
  rw [getLsbD_maskGen true hk, BitVec.getLsbD_ofNat, ones_testBit, decide_eq_true hk, Bool.true_and, if_pos rfl]

/-- The masks of the two sides whose counts of zeros add up to 8 are complements. -/
theorem maskGen_not (zl : Bool) {n : Nat} (hn : n ≤ 8) : maskGen (!zl) n = ~~~ maskGen zl (8 - n) := by
  apply BitVec.eq_of_getLsbD_eq
  intro k hk
  rw [BitVec.getLsbD_not, getLsbD_maskGen _ hk, getLsbD_maskGen _ hk, decide_eq_true hk, Bool.true_and]
  cases zl
  · simp only [Bool.not_false, if_true, Bool.false_eq_true, if_false, ← decide_not, Nat.not_le]
  · simp only [Bool.not_true, if_true, Bool.false_eq_true, if_false, ← decide_not, decide_eq_decide]
    omega

theorem maskGen_false_eq_sub_ones {n : Nat} (hn : n ≤ 8) : maskGen false n = 0xFF - BitVec.ofNat 8 (ones n) := by
  calc maskGen false n
      = ~~~ maskGen true (8 - n) := maskGen_not true hn
    _ = ~~~ BitVec.ofNat 8 (ones n) := by rw [maskGen_true_eq_ones, Nat.sub_sub_self hn]
    _ = 0xFF - BitVec.ofNat 8 (ones n) := (BitVec.allOnes_sub_eq_not _).symm

/-- The zeros are the bits from `8 - n` on, or the bits below `n`: either way an interval of `n` bits. -/
theorem length_zeros_maskGen (zl : Bool) {n : Nat} (hn : n ≤ 8) :
    ((List.range 8).filter fun j => !(maskGen zl n).getLsbD j).length = n := by
  have hbit : ∀ j ∈ List.Ico 0 8,
      (!(maskGen zl n).getLsbD j) = if zl then decide (8 - n ≤ j) else decide (j < n) := by
    intro j hj
    rw [getLsbD_maskGen zl (List.Ico.mem.1 hj).2]
    split_ifs <;> simp only [← decide_not, Nat.not_le, Nat.not_lt]
  rw [← List.Ico.zero_bot, List.filter_congr hbit]
  cases zl
  · simp only [Bool.false_eq_true, if_false, List.Ico.filter_lt, List.Ico.length]
    omega
  · simp only [if_true, List.Ico.filter_le, List.Ico.length]
    omega

/-- Settles O18: the ends of the count are evaluated, and each other fact is a law of the mask of any count. -/
theorem maskGeneratorFacts : Obligations.MaskGeneratorFacts := fun n hn =>
  ⟨by decide, maskGen_true_eq_ones n, maskGen_false_eq_sub_ones hn, maskGen_not false hn,
    fun zl => length_zeros_maskGen zl hn⟩

/-! The inserters (R79). -/

/-- Settles O44: what is extracted again is proved with the segment's law, and the bits outside the segment are the
other branch of each inserter's bits. -/
theorem inserterLaws : Obligations.InserterLaws := by
  intro s w v b n hs _ hw hv
  refine ⟨fun hsingle => ⟨extract_insertSingle b 0 hs hsingle hv, fun j hj hout => ?_⟩,
    fun hstraddle => ⟨extract_insertHi_insertLo b n hs hstraddle hw hv, fun j hj => ?_, fun j hj hout => ?_⟩⟩
  · rw [getLsbD_insertSingle b v hsingle hv hj, if_neg (by omega)]
  · rw [getLsbD_insertHi b v hs hstraddle hv (by omega), if_neg (by omega)]
  · rw [getLsbD_insertLo n v hs hstraddle hw hj, if_neg (by omega)]

/-! The position decoder (R74). -/

/-- `dec` inverts `pos`: a decoded bit position is that position again. -/
theorem pos_decByte_decBit (q : Nat) : pos (decByte q) (decBit q) = q := Nat.div_add_mod q 8

theorem endbyte_eq (b : Nat) {s w : Nat} (hs : s ≤ 7) (hw1 : 1 ≤ w) (hw8 : w ≤ 8) :
    endbyte b s w = if single s w then b else b + 1 := by
  unfold endbyte pos single
  by_cases h : s + w ≤ 8
  · rw [decide_eq_true h, if_pos rfl]
    omega
  · rw [decide_eq_false h, if_neg Bool.false_ne_true]
    omega

/-- Settles O45: both neighbours are decoded positions. -/
theorem positionDecoderSteps : Obligations.PositionDecoderSteps := by
  intro b s w hs hw1 hw8
  refine ⟨endbyte_eq b hs hw1 hw8, pos_decByte_decBit (pos b s + w), fun hp => ?_⟩
  have hprev : pos (prevPos b s w).1 (prevPos b s w).2 = pos b s - w := pos_decByte_decBit (pos b s - w)
  rw [hprev, Nat.sub_add_cancel hp]

end Sys2Proof.Machine
end

section
/-!
PROOFS of 41_init.md: the four paths of INIT (R82 to R84) as one equation each, in terms of the open answer and the stream
alone. R85 is that none of these conditions speaks of a register, and that each path overwrites the registers.
-/

namespace Sys2Proof.Machine

/-! The paths of INIT. -/

theorem exec_init_of_openFails (wreq : Nat) {s : State} (ho : s.input.openOk = false) :
    exec (.init wreq) s =
      raise .streamOpenError ((s.addAccess .openStream).setRegs (initRegs .failed (clampw wreq) true 0 0)) := by
  simp [exec, execInit, streamOpen, ho, emptyAfterFailedOpen]

theorem exec_init_of_emptyStream (wreq : Nat) {s : State} (ho : s.input.openOk = true) (hl : s.stream.len = 0) :
    exec (.init wreq) s =
      respond 0 0 0 ((s.addAccess .openStream).setRegs (initRegs .bound (clampw wreq) true 0 0)) := by
  simp [exec, execInit, streamOpen, ho, hl, emptyAfterOpen]

theorem exec_init_of_byteZero (wreq : Nat) {s : State} {b : Byte} (ho : s.input.openOk = true)
    (hl : s.stream.len ≠ 0) (hb : s.stream.byteAt 0 = some b) :
    exec (.init wreq) s =
      respond 0 0 0 (((s.addAccess .openStream).addAccess (.read 0)).setRegs
        (initRegs .bound (clampw wreq) false b (extract b 0 0 (clampw wreq)))) := by
  simp [exec, execInit, streamOpen, memRead, ho, hl, hb, emptyAfterOpen]

/-- A stream that has bytes but no byte 0 is not in canonical form (R37, log 11). -/
theorem exec_init_of_noByteZero (wreq : Nat) {s : State} (ho : s.input.openOk = true) (hl : s.stream.len ≠ 0)
    (hb : s.stream.byteAt 0 = none) : exec (.init wreq) s = .fault .invariantBroken := by
  simp [exec, execInit, streamOpen, memRead, ho, hl, hb]

/-! The statements of R83 to R85. -/

/-- At bit 0 the extractor's field lies in the high byte alone. -/
theorem extract_at_zero (hi lo : Byte) {w : Nat} (hw : w ≤ 8) :
    extract hi lo 0 w = (hi >>> (8 - w)) &&& BitVec.ofNat 8 (ones w) := by
  apply BitVec.eq_of_getLsbD_eq
  intro k hk
  rw [getLsbD_extract hi lo (Nat.zero_le 7) hw hk, BitVec.getLsbD_and, BitVec.getLsbD_ushiftRight,
    BitVec.getLsbD_ofNat, ones_testBit, decide_eq_true hk, Bool.true_and]
  by_cases hkw : k < w
  · rw [decide_eq_true hkw, Bool.true_and, Bool.and_true, if_pos (by omega)]
    congr 1
    omega
  · rw [decide_eq_false hkw, Bool.false_and, Bool.and_false]

/-- Settles O11: the stream is empty, or its canonical form gives byte 0, from which VAL is extracted at bit 0. -/
theorem initBindsTheStream : Obligations.InitBindsTheStream := by
  rintro wreq w s ho hwf (rfl : w = clampw wreq)
  refine ⟨fun hl => exec_init_of_emptyStream wreq ho hl, fun hl => ?_⟩
  rw [exec_init_of_byteZero wreq ho hl.ne' (Memory.byteAt_of_lt hwf hl),
    extract_at_zero _ _ (clampw_bounds wreq).2]
  simp [respond, initRegs, State.setResp, State.setRegs, State.addAccess]

/-- Settles O12: this is the path of a failed open. -/
theorem initAnswersFailedOpen : Obligations.InitAnswersFailedOpen :=
  fun wreq _ ho => exec_init_of_openFails wreq ho

theorem State.addAccess_setRegs (a : Access) (r : Regs) (s : State) :
    (s.setRegs r).addAccess a = (s.addAccess a).setRegs r := rfl

@[simp] theorem State.setRegs_setRegs (r r' : Regs) (s : State) : (s.setRegs r).setRegs r' = s.setRegs r' := rfl

/-- Settles O13: both states take the same path, which overwrites the registers they differ in. -/
theorem initIgnoresThePreviousCursor : Obligations.InitIgnoresThePreviousCursor := by
  intro wreq s r
  cases ho : s.input.openOk with
  | false =>
    rw [exec_init_of_openFails wreq ho, exec_init_of_openFails wreq (s := s.setRegs r) ho,
      State.addAccess_setRegs, State.setRegs_setRegs]
  | true =>
    by_cases hl : s.stream.len = 0
    · rw [exec_init_of_emptyStream wreq ho hl, exec_init_of_emptyStream wreq (s := s.setRegs r) ho hl,
        State.addAccess_setRegs, State.setRegs_setRegs]
    · cases hb : s.stream.byteAt 0 with
      | none => rw [exec_init_of_noByteZero wreq ho hl hb, exec_init_of_noByteZero wreq (s := s.setRegs r) ho hl hb]
      | some b =>
        rw [exec_init_of_byteZero wreq ho hl hb, exec_init_of_byteZero wreq (s := s.setRegs r) ho hl hb,
          State.addAccess_setRegs, State.addAccess_setRegs, State.setRegs_setRegs]

end Sys2Proof.Machine
end

section
/-!
PROOFS of 42_access.md, first part: what GET and GETS answer (R86, R87), which operands SET and SETS reject (R88, R95), and
that SETS of a value's digits is SET of the value.
-/

namespace Sys2Proof.Machine

/-! GET and GETS (R86, R87). -/

theorem exec_get_of_bound {s : State} (hb : s.regs.bstate = .bound) : exec .get s = respond s.regs.val 0 0 s := by
  simp only [exec, execGet, bindingError_eq_none.2 hb]

theorem exec_gets_of_bound {s : State} (hb : s.regs.bstate = .bound) :
    exec .gets s = respond 0 (BitVec.ofNat 8 s.regs.w) (valStr s.regs.val s.regs.w) s := by
  simp only [exec, execGets, bindingError_eq_none.2 hb, Regs.w, BitVec.ofNat_toNat]

/-- The slots of the string that GETS answers. -/
theorem strChar_valStr (v : Byte) (w : Nat) {i : Nat} (hi : i < 8) : strChar (valStr v w) i = valChar v w i := by
  unfold strChar valStr
  interval_cases i
  all_goals
    simp only [extractLsb'_append_byte_succ, Nat.mul_zero, BitVec.extractLsb'_append_eq_right,
      BitVec.extractLsb'_eq_self]

theorem valChar_zero {w i : Nat} (hi : i < w) : valChar 0 w i = 0x30#8 := by
  simp [valChar, hi, char0]

/-- Settles O14: R26 bounds VAL, and R24 makes it 0 while EMPTY is 1. -/
theorem getAnswersVal : Obligations.GetAnswersVal :=
  fun _ hb => ⟨exec_get_of_bound hb, fun h => ⟨h.val_lt, fun he => (h.empty_zero he).1⟩⟩

/-- Settles O15: the string is `valStr`, whose slots are the digits of VAL, all of them 0 while EMPTY is 1. -/
theorem getsAnswersTheDigitsOfVal : Obligations.GetsAnswersTheDigitsOfVal := by
  intro s hb _ hw
  refine ⟨valStr s.regs.val s.regs.w, exec_gets_of_bound hb, fun i hi => strChar_valStr _ _ hi, fun h he i hi => ?_⟩
  have hval : s.regs.val = 0 := (h.empty_zero he).1
  calc strChar (valStr s.regs.val s.regs.w) i
      = valChar 0 s.regs.w i := by rw [strChar_valStr _ _ (by omega), hval]
    _ = 0x30#8 := valChar_zero hi

/-! SET and SETS: the checks (R88, R95). -/

/-- Settles O19: the check comes first. -/
theorem setRejectsAWideValue : Obligations.SetRejectsAWideValue := by
  intro v s hb hv
  have hwide : tooWide v s = true := decide_eq_true hv
  simp only [exec, execSet, bindingError_eq_none.2 hb, hwide, if_true]
  rfl

/-- The first `w` characters of the string are the binary digits of `v`, the most significant first (R95). -/
def SpellsDigits (str : StrBus) (w v : Nat) : Prop :=
  ∀ k : Nat, k < w → strChar str k = if v.testBit (w - 1 - k) then 0x31#8 else 0x30#8

/-- GETS answers a string that SETS reads as VAL. -/
theorem spellsDigits_valStr (v : Byte) {w : Nat} (hw : w ≤ 8) : SpellsDigits (valStr v w) w v.toNat := by
  intro k hk
  rw [strChar_valStr v w (by omega), valChar, if_pos hk]
  rfl

theorem stringOperand_of_spellsDigits {v : Nat} {s : State} (hv : v < 2 ^ s.regs.w)
    (h : SpellsDigits s.input.cstr s.regs.w v) : stringOperand s.regs.w s = some v :=
  (if_pos rfl).trans (strValue_of_digits hv h)

theorem exec_sets_of_spellsDigits {v : Nat} {s : State} (hb : s.regs.bstate = .bound) (hv : v < 2 ^ s.regs.w)
    (h : SpellsDigits s.input.cstr s.regs.w v) : exec (.sets s.regs.w) s = exec (.set v) s := by
  simp only [exec, execSets, execSet, bindingError_eq_none.2 hb, stringOperand_of_spellsDigits hv h]

theorem exec_sets_of_stringOperand_eq_none {n : Nat} {s : State} (hb : s.regs.bstate = .bound)
    (h : stringOperand n s = none) : exec (.sets n) s = raise .invalidSegmentValue s := by
  simp only [exec, execSets, bindingError_eq_none.2 hb, h]

/-- Settles O24: digits are read back as their value, and one bad character leaves the string without a value. -/
theorem setsDelegatesToSet : Obligations.SetsDelegatesToSet := by
  intro s hb
  refine ⟨fun v hv hdigits => exec_sets_of_spellsDigits hb hv hdigits, fun n hbad => ?_⟩
  rcases hbad with hlen | ⟨k, hk, h0, h1⟩
  · exact execSets_of_len_ne hb hlen
  · have hnone : stringOperand n s = none := by
      unfold stringOperand
      split
      · exact strValue_eq_none hk h0 h1
      · rfl
    exact exec_sets_of_stringOperand_eq_none hb hnone

end Sys2Proof.Machine
end

section
/-!
PROOFS of 42_access.md, second part: the three cases of SET (R90 to R92). From a good state with room for the byte of the
segment's last bit the writes are answered, so that SET ends in one state, `segmentWritten`, whose parts are known case by
case and the bytes of which are known bit by bit.
-/

namespace Sys2Proof.Machine

/-- `s` after its segment is written with `v`: the stream, the registers, the record of accesses and the response (R89). -/
def segmentWritten (v : Byte) (s : State) : State :=
  { s with
    regs := segmentRegs v s
    stream := (segmentWrites v s).foldl (fun m x => m.put x.1 x.2) s.stream
    accesses := s.accesses ++ ((if straddles s then [.read (s.regs.boff + 1)] else []) ++
      (segmentWrites v s).map fun x => .write x.1 x.2)
    resp := some (okResponse 0 0 0) }

/-- Below the capacity none of the writes faults. -/
theorem Inv.writeSegment_eq {s : State} (h : Inv s) (hb : s.regs.bstate = .bound)
    (hcap : endbyte s.regs.boff s.regs.s s.regs.w < s.params.streamCapacity) (v : Byte) :
    writeSegment v s = .next (segmentWritten v s) := by
  cases hw : writeSegment v s with
  | next t =>
    have hstream := writeSegment_stream hw
    have haccesses := writeSegment_accesses hw
    obtain ⟨s', hwrites, rfl⟩ := writeSegment_eq_next.1 hw
    simp only [State.setResp_stream, State.setRegs_stream, State.setResp_accesses, State.setRegs_accesses]
      at hstream haccesses
    rw [memWrites_frame hwrites, hstream, haccesses, segmentWritten]
    split <;> rfl
  | fault f =>
    have hwrites := writeSegment_eq_fault.1 hw
    obtain ⟨rfl, -⟩ := h.segmentWrites_eq_error hb (by split <;> rfl) (by split <;> rfl) hwrites
    have hfull := (h.segmentWrites_eq_streamFull_iff hb (by split <;> rfl) (by split <;> rfl)).1 hwrites
    omega
  | refused r => exact absurd hw writeSegment_ne_refused

theorem Inv.exec_set_eq {s : State} {v : Nat} (h : Inv s) (hb : s.regs.bstate = .bound) (hv : v < 2 ^ s.regs.w)
    (hcap : endbyte s.regs.boff s.regs.s s.regs.w < s.params.streamCapacity) :
    exec (.set v) s = .next (segmentWritten (BitVec.ofNat 8 v) s) :=
  (execSet_of_lt hb hv).trans (h.writeSegment_eq hb hcap _)

theorem Inv.inv_segmentWritten {s : State} {v : Byte} (h : Inv s) (hb : s.regs.bstate = .bound)
    (hv : v.toNat < 2 ^ s.regs.w) (hcap : endbyte s.regs.boff s.regs.s s.regs.w < s.params.streamCapacity) :
    Inv (segmentWritten v s) :=
  WritesSegment.inv_of_next ⟨hb, v, hv, rfl⟩ h (h.writeSegment_eq hb hcap v)

/-! The parts of `segmentWritten`. -/

theorem segmentCurb_of_empty {s : State} (v : Byte) (he : s.regs.empty = true) :
    segmentCurb v s = v <<< (8 - s.regs.w) := if_pos he

theorem segmentCurb_of_single {s : State} (v : Byte) (he : s.regs.empty = false) (hsw : s.regs.s + s.regs.w ≤ 8) :
    segmentCurb v s = insertSingle s.regs.curb s.regs.s s.regs.w v := by
  simp [segmentCurb, he, single, hsw]

theorem segmentCurb_of_straddle {s : State} (v : Byte) (he : s.regs.empty = false) (hsw : 8 < s.regs.s + s.regs.w) :
    segmentCurb v s = insertHi s.regs.curb s.regs.s s.regs.w v := by
  simp [segmentCurb, he, single, hsw]

theorem segmentRegs_of_nonempty {s : State} (v : Byte) (he : s.regs.empty = false) :
    segmentRegs v s = { s.regs with curb := segmentCurb v s, val := v } := by
  simp [segmentRegs, emptyAfterWrite, he]

/-- On an empty stream the cursor stands at position 0 (R32). -/
theorem Inv.position_of_empty {s : State} (h : Inv s) (hb : s.regs.bstate = .bound) (he : s.regs.empty = true) :
    s.stream = [] ∧ s.regs.boff = 0 ∧ s.regs.s = 0 := by
  have hlen := (h.bound_inv hb).empty_iff.1 he
  have hinside := h.position_inside
  rw [Regs.p_eq, hlen] at hinside
  exact ⟨List.eq_nil_of_length_eq_zero hlen, by omega, by omega⟩

theorem Inv.endbyte_of_single {s : State} (h : Inv s) (hsw : s.regs.s + s.regs.w ≤ 8) :
    endbyte s.regs.boff s.regs.s s.regs.w = s.regs.boff := by
  rw [endbyte_eq _ s.regs.s_le h.width_pos h.width_le, if_pos (by simpa [single] using hsw)]

theorem Inv.endbyte_of_straddle {s : State} (h : Inv s) (hsw : 8 < s.regs.s + s.regs.w) :
    endbyte s.regs.boff s.regs.s s.regs.w = s.regs.boff + 1 := by
  rw [endbyte_eq _ s.regs.s_le h.width_pos h.width_le, if_neg (by simpa [single] using hsw)]

/-! A value of WIDTH bits as a byte. -/

theorem Inv.toNat_ofNat_of_lt {s : State} {v : Nat} (h : Inv s) (hv : v < 2 ^ s.regs.w) :
    (BitVec.ofNat 8 v).toNat = v :=
  Nat.mod_eq_of_lt (lt_of_lt_of_le hv (Nat.pow_le_pow_right (by omega) h.width_le))

theorem Inv.getLsbD_ofNat_of_lt {s : State} {v : Nat} (h : Inv s) (hv : v < 2 ^ s.regs.w) (k : Nat) :
    (BitVec.ofNat 8 v).getLsbD k = v.testBit k :=
  congrArg (Nat.testBit · k) (h.toNat_ofNat_of_lt hv)

theorem ofNat_shiftLeft (v k : Nat) : BitVec.ofNat 8 v <<< k = BitVec.ofNat 8 (v * 2 ^ k) := by
  apply BitVec.eq_of_toNat_eq
  simp [Nat.shiftLeft_eq]

/-! The three cases. -/

/-- Settles O20: the write is that of an empty stream, where the position is 0. -/
theorem setOnAnEmptyStream : Obligations.SetOnAnEmptyStream := by
  intro v s h hb he hv hroom
  obtain ⟨hstream, hboff, hs⟩ := h.position_of_empty hb he
  have hend : endbyte s.regs.boff s.regs.s s.regs.w = s.regs.boff :=
    h.endbyte_of_single (by rw [hs, Nat.zero_add]; exact h.width_le)
  have hcap : endbyte s.regs.boff s.regs.s s.regs.w < s.params.streamCapacity := by rw [hend, hboff]; exact hroom
  have hread : straddles s = false := by simp [straddles, he]
  refine ⟨?_, hboff, BitVec.eq_of_toNat_eq hs, (insertSingle_zero _ _).trans (ofNat_shiftLeft _ _)⟩
  rw [h.exec_set_eq hb hv hcap, segmentWritten, segmentRegs, segmentWrites_of_empty _ he, segmentCurb_of_empty _ he,
    ofNat_shiftLeft, hread, hstream]
  rfl

/-- Settles O21: the byte is what `insertSingle` puts into CURB. -/
theorem setWithinOneByte : Obligations.SetWithinOneByte := by
  intro v s h hb he hsw hv hroom
  have hcap : endbyte s.regs.boff s.regs.s s.regs.w < s.params.streamCapacity := by
    rw [h.endbyte_of_single hsw]; exact hroom
  have hread : straddles s = false := by simp [straddles, single, hsw]
  refine ⟨insertSingle s.regs.curb s.regs.s s.regs.w (BitVec.ofNat 8 v), ?_, fun j hj => ?_⟩
  · rw [h.exec_set_eq hb hv hcap, segmentWritten, segmentRegs_of_nonempty _ he, segmentWrites_of_single _ he hsw,
      segmentCurb_of_single _ he hsw, hread]
    rfl
  · rw [getLsbD_insertSingle _ _ hsw (by rwa [h.toNat_ofNat_of_lt hv]) hj, h.getLsbD_ofNat_of_lt hv]

/-- Settles O22: the bytes are what `insertHi` puts into CURB and `insertLo` into the byte after it. -/
theorem setAcrossTwoBytes : Obligations.SetAcrossTwoBytes := by
  intro v s h hb he hsw hv hroom
  have hs := s.regs.s_le
  have hcap : endbyte s.regs.boff s.regs.s s.regs.w < s.params.streamCapacity := by
    rw [h.endbyte_of_straddle hsw]; exact hroom
  have hread : straddles s = true := straddles_iff.2 ⟨he, hsw⟩
  refine ⟨insertHi s.regs.curb s.regs.s s.regs.w (BitVec.ofNat 8 v),
    insertLo (s.stream.readOrZero (s.regs.boff + 1)) s.regs.s s.regs.w (BitVec.ofNat 8 v), ?_,
    fun j hj => ?_, fun j hj => ?_⟩
  · rw [h.exec_set_eq hb hv hcap, segmentWritten, segmentRegs_of_nonempty _ he, segmentWrites_of_straddle _ he hsw,
      segmentCurb_of_straddle _ he hsw, hread]
    rfl
  · rw [getLsbD_insertHi _ _ hs hsw (by rwa [h.toNat_ofNat_of_lt hv]) hj, h.getLsbD_ofNat_of_lt hv]
  · rw [getLsbD_insertLo _ _ hs hsw h.width_le hj, h.getLsbD_ofNat_of_lt hv]

end Sys2Proof.Machine
end

section
/-!
PROOFS of 42_access.md, third part: the stream bits after SET and SETS (R93), and the round trip from GETS to SETS. The
segment's own bits are R31 in the new state, every other bit is the other branch of the inserters' bits, and a stream in
canonical form is known by its length and its bits.
-/

namespace Sys2Proof.Machine

/-! The stream after a write of the segment. -/

/-- A write at or below L makes the stream reach just past its index (R41). -/
theorem Memory.len_put_eq_max {m : Memory} {i : Nat} (v : Byte) (hwf : m.wf = true) (hi : i ≤ m.len) :
    (m.put i v).len = max m.len (i + 1) := by
  rcases Nat.lt_or_eq_of_le hi with hlt | heq
  · rw [Memory.len_put_lt v hwf hlt, Nat.max_eq_left hlt]
  · rw [Memory.len_put_append v hwf heq, heq, Nat.max_eq_right (Nat.le_succ _)]

/-- A write leaves every bit that agrees with the byte that was there. -/
theorem Memory.sbit_put {m : Memory} {i q : Nat} {v : Byte}
    (h : q / 8 = i → v.getLsbD (7 - q % 8) = (m.readOrZero i).getLsbD (7 - q % 8)) :
    (m.put i v).sbit q = m.sbit q := by
  rw [Memory.sbit_eq, Memory.sbit_eq, Memory.readOrZero_put]
  split
  · next hq => rw [h hq, hq]
  · rfl

section
variable {s : State} {v : Byte}

theorem Inv.len_segmentWritten (h : Inv s) (hb : s.regs.bstate = .bound) :
    (segmentWritten v s).stream.len = max s.stream.len (endbyte s.regs.boff s.regs.s s.regs.w + 1) := by
  by_cases hsw : s.regs.s + s.regs.w ≤ 8
  · rw [segmentWritten, (h.segmentWrites_of_single hb v hsw).1, h.endbyte_of_single hsw]
    exact Memory.len_put_eq_max _ h.stream_wf h.boff_le_len
  · rw [Nat.not_le] at hsw
    have hw := h.width_le
    have hlt : s.regs.boff < s.stream.len := h.boff_lt_len (by omega)
    have hlen (b : Byte) : (s.stream.put s.regs.boff b).len = s.stream.len := Memory.len_put_lt b h.stream_wf hlt
    rw [segmentWritten, segmentWrites_of_straddle v (h.empty_eq_false_of_straddle hb hsw) hsw,
      h.endbyte_of_straddle hsw]
    simp only [List.foldl_cons, List.foldl_nil]
    rw [Memory.len_put_eq_max _ (Memory.wf_put _ h.stream_wf hlt.le) (by rw [hlen]; exact hlt), hlen]

/-- Every stream bit outside the segment stays (R93). -/
theorem Inv.sbit_segmentWritten (h : Inv s) (hb : s.regs.bstate = .bound) (hv : v.toNat < 2 ^ s.regs.w) {q : Nat}
    (hq : q < s.regs.p ∨ s.regs.p + s.regs.w ≤ q) : (segmentWritten v s).stream.sbit q = s.stream.sbit q := by
  have hs := s.regs.s_le
  have hw := h.width_le
  have hcurb := (h.bound_inv hb).curb_eq
  rw [Regs.p_eq] at hq
  by_cases hsw : s.regs.s + s.regs.w ≤ 8
  · rw [segmentWritten, (h.segmentWrites_of_single hb v hsw).1]
    refine Memory.sbit_put fun hbyte => ?_
    rw [getLsbD_insertSingle _ _ hsw hv (by omega), if_neg (by omega), hcurb]
  · rw [Nat.not_le] at hsw
    rw [segmentWritten, segmentWrites_of_straddle v (h.empty_eq_false_of_straddle hb hsw) hsw]
    simp only [List.foldl_cons, List.foldl_nil]
    rw [Memory.sbit_put, Memory.sbit_put]
    · intro hbyte
      rw [getLsbD_insertHi _ _ hs hsw hv (by omega), if_neg (by omega), hcurb]
    · intro hbyte
      rw [getLsbD_insertLo _ _ hs hsw hw (by omega), if_neg (by omega), Memory.readOrZero_put, if_neg (by omega)]

end

/-- SETS of the digits of `v` is SET of `v`, and both end in `segmentWritten`. -/
theorem Inv.exec_set_or_sets_eq {i : Instr} {v : Nat} {s : State} (h : Inv s) (hb : s.regs.bstate = .bound)
    (hv : v < 2 ^ s.regs.w) (hcap : endbyte s.regs.boff s.regs.s s.regs.w < s.params.streamCapacity)
    (hi : i = .set v ∨ (i = .sets s.regs.w ∧ SpellsDigits s.input.cstr s.regs.w v)) :
    exec i s = .next (segmentWritten (BitVec.ofNat 8 v) s) := by
  rcases hi with rfl | ⟨rfl, hdigits⟩
  · exact h.exec_set_eq hb hv hcap
  · rw [exec_sets_of_spellsDigits hb hv hdigits, h.exec_set_eq hb hv hcap]

/-- Settles O25: in the new state VAL is the segment by R31, and CURB is the byte at BOFF by R30. -/
theorem segmentWriteIsExact : Obligations.SegmentWriteIsExact := by
  intro i v s h hb hv hcap hi
  have hbyte := h.toNat_ofNat_of_lt hv
  have hv8 : (BitVec.ofNat 8 v).toNat < 2 ^ s.regs.w := by rwa [hbyte]
  have hbound := (h.inv_segmentWritten hb hv8 hcap).bound_inv hb
  refine ⟨_, h.exec_set_or_sets_eq hb hv hcap hi, hbound.val_eq.symm.trans hbyte,
    fun q => h.sbit_segmentWritten hb hv8, h.len_segmentWritten hb, ?_, rfl, rfl, rfl, rfl, rfl⟩
  calc (segmentWritten (BitVec.ofNat 8 v) s).regs
      = { s.regs with empty := false, curb := segmentCurb (BitVec.ofNat 8 v) s, val := BitVec.ofNat 8 v } := rfl
    _ = _ := congrArg (fun b => { s.regs with empty := false, curb := b, val := BitVec.ofNat 8 v }) hbound.curb_eq

/-! A canonical stream is known by its length and its bits (R37). -/

/-- In canonical form from `n` on, cell `k` is that of index `n + k`. -/
theorem Memory.getElem?_of_wfFrom {n : Nat} {m : Memory} (h : Memory.wfFrom n m = true) (k : Nat) :
    m[k]? = (m.byteAt (n + k)).map fun b => (n + k, b) := by
  induction m generalizing n k with
  | nil => rfl
  | cons c m ih =>
    obtain ⟨a, b⟩ := c
    obtain ⟨rfl, h⟩ := Memory.wfFrom_cons.1 h
    cases k with
    | zero => simp [Memory.byteAt_cons]
    | succ k =>
      rw [List.getElem?_cons_succ, ih h k, Memory.byteAt_cons, if_neg (by omega), Nat.add_right_comm, Nat.add_assoc]

theorem Memory.eq_of_byteAt_eq {m m' : Memory} (hwf : m.wf = true) (hwf' : m'.wf = true)
    (h : ∀ i, m.byteAt i = m'.byteAt i) : m = m' :=
  List.ext_getElem? fun k => by
    rw [Memory.getElem?_of_wfFrom hwf, Memory.getElem?_of_wfFrom hwf', h]

theorem Memory.readOrZero_eq_of_sbit_eq {m m' : Memory} (h : ∀ q, m.sbit q = m'.sbit q) (i : Nat) :
    m.readOrZero i = m'.readOrZero i := by
  apply BitVec.eq_of_getLsbD_eq
  intro k hk
  have hbit := h (8 * i + (7 - k))
  rw [Memory.sbit_eq, Memory.sbit_eq, show (8 * i + (7 - k)) / 8 = i by omega,
    show 7 - (8 * i + (7 - k)) % 8 = k by omega] at hbit
  exact Function.LeftInverse.injective Bool.ofNat_toNat hbit

theorem Memory.eq_of_sbit_eq {m m' : Memory} (hwf : m.wf = true) (hwf' : m'.wf = true) (hlen : m.len = m'.len)
    (h : ∀ q, m.sbit q = m'.sbit q) : m = m' := by
  refine Memory.eq_of_byteAt_eq hwf hwf' fun i => ?_
  by_cases hi : i < m.len
  · rw [Memory.byteAt_of_lt hwf hi, Memory.byteAt_of_lt hwf' (hlen ▸ hi), Memory.readOrZero_eq_of_sbit_eq h]
  · rw [Nat.not_lt] at hi
    rw [(Memory.byteAt_eq_none hwf).2 hi, (Memory.byteAt_eq_none hwf').2 (hlen ▸ hi)]

/-- Streams with the same segment at `p` have the same bits there (R46). -/
theorem Memory.sbit_eq_of_seg_eq {m m' : Memory} {p w q : Nat} (h : m.seg p w = m'.seg p w) (hp : p ≤ q)
    (hq : q < p + w) : m.sbit q = m'.sbit q := by
  have hbit := congrArg (Nat.testBit · (w - 1 - (q - p))) h
  simp only [Memory.testBit_seg, show p + (w - 1 - (w - 1 - (q - p))) = q by omega,
    decide_eq_true (show w - 1 - (q - p) < w by omega), Bool.true_and, decide_eq_decide] at hbit
  have hle := m.sbit_le_one q
  have hle' := m'.sbit_le_one q
  omega

/-! From GETS to SETS. -/

/-- Writing the segment that is there, wholly inside the stream, changes no stream bit and no register. -/
theorem Inv.segmentWritten_val {s : State} (h : Inv s) (hb : s.regs.bstate = .bound)
    (hend : s.regs.p + s.regs.w ≤ 8 * s.stream.len) :
    (segmentWritten s.regs.val s).regs = s.regs ∧ (segmentWritten s.regs.val s).stream = s.stream := by
  have hw := h.width_pos
  have hlast : endbyte s.regs.boff s.regs.s s.regs.w < s.stream.len := by
    change (s.regs.p + s.regs.w - 1) / 8 < s.stream.len
    omega
  have hgood := h.inv_segmentWritten hb h.val_lt (lt_of_lt_of_le hlast h.stream_fits)
  have hnew := hgood.bound_inv hb
  have hold := h.bound_inv hb
  have hlen : (segmentWritten s.regs.val s).stream.len = s.stream.len := by
    rw [h.len_segmentWritten hb, Nat.max_eq_left hlast]
  have hbits : ∀ q, (segmentWritten s.regs.val s).stream.sbit q = s.stream.sbit q := by
    intro q
    by_cases hq : s.regs.p ≤ q ∧ q < s.regs.p + s.regs.w
    · exact Memory.sbit_eq_of_seg_eq (hnew.val_eq.symm.trans hold.val_eq) hq.1 hq.2
    · exact h.sbit_segmentWritten hb h.val_lt (by omega)
  have hstream := Memory.eq_of_sbit_eq hgood.stream_wf h.stream_wf hlen hbits
  have hcurb : segmentCurb s.regs.val s = s.regs.curb := by
    rw [hold.curb_eq, ← hstream]
    exact hnew.curb_eq
  refine ⟨?_, hstream⟩
  calc (segmentWritten s.regs.val s).regs
      = { s.regs with curb := segmentCurb s.regs.val s, val := s.regs.val } :=
        segmentRegs_of_nonempty _ (h.empty_eq_false hb (Nat.zero_lt_of_lt hlast))
    _ = s.regs := by rw [hcurb]

/-- SETS of the string that GETS answers is SET of VAL. -/
theorem Inv.exec_sets_valStr {s : State} (h : Inv s) (hb : s.regs.bstate = .bound)
    (hcap : endbyte s.regs.boff s.regs.s s.regs.w < s.params.streamCapacity)
    (hstr : s.input.cstr = valStr s.regs.val s.regs.w) :
    exec (.sets s.regs.w) s = .next (segmentWritten s.regs.val s) := by
  have hdigits : SpellsDigits s.input.cstr s.regs.w s.regs.val.toNat := by
    rw [hstr]
    exact spellsDigits_valStr _ h.width_le
  rw [h.exec_set_or_sets_eq hb h.val_lt hcap (.inr ⟨rfl, hdigits⟩), BitVec.ofNat_toNat, BitVec.setWidth_eq]

/-- `s` after GETS, with the string it answered at the port. -/
def withGetsAnswer (s : State) : State :=
  (s.setResp (some (okResponse 0 (BitVec.ofNat 8 s.regs.w) (valStr s.regs.val s.regs.w)))).withCstr
    (valStr s.regs.val s.regs.w)

/-- Settles O46: the string spells VAL, so SETS writes the segment that is there. -/
theorem getsThenSetsKeepsTheSegment : Obligations.GetsThenSetsKeepsTheSegment := by
  intro s h hb hcap
  have hgood : Inv (withGetsAnswer s) := h.congr rfl rfl rfl
  have hlen : (BitVec.ofNat 8 s.regs.w).toNat = s.regs.w :=
    Nat.mod_eq_of_lt (lt_of_le_of_lt h.width_le (by decide))
  have hsets : exec (.sets (BitVec.ofNat 8 s.regs.w).toNat) (withGetsAnswer s) =
      .next (segmentWritten s.regs.val (withGetsAnswer s)) := by
    rw [hlen]
    exact hgood.exec_sets_valStr hb hcap rfl
  exact ⟨_, _, _, exec_gets_of_bound hb, rfl, hsets, rfl, rfl, hgood.segmentWritten_val hb⟩

end Sys2Proof.Machine
end

section
/-!
PROOFS of 43_navigation.md, first part: MVL and MVR from a good state (R96 to R101). A position determines the registers of a
good cursor there, `cursorAt`, and a successful move installs those of the position one segment to the left or to the right.
-/

namespace Sys2Proof.Machine

/-! The cursor at a position (R21, R30, R31). -/

/-- The registers `r` with BOFF, SIDX, CURB and VAL as the invariants want them at position `q` of the stream `m`. -/
def cursorAt (r : Regs) (m : Memory) (q : Nat) : Regs :=
  { r with
    boff := q / 8
    sidx := BitVec.ofNat 3 (q % 8)
    curb := m.readOrZero (q / 8)
    val := BitVec.ofNat 8 (m.seg q r.w) }

section
variable (r : Regs) (m : Memory) (q : Nat)

@[simp] theorem cursorAt_bstate : (cursorAt r m q).bstate = r.bstate := rfl
@[simp] theorem cursorAt_w : (cursorAt r m q).w = r.w := rfl
@[simp] theorem cursorAt_empty : (cursorAt r m q).empty = r.empty := rfl

@[simp] theorem cursorAt_p : (cursorAt r m q).p = q := by
  have hs : (cursorAt r m q).s = q % 8 := Nat.mod_eq_of_lt (Nat.mod_lt q (by decide))
  rw [Regs.p_eq, hs]
  exact Nat.div_add_mod q 8

/-- Of the registers before, a move keeps nothing that depends on the position. -/
@[simp] theorem cursorAt_cursorAt (q' : Nat) : cursorAt (cursorAt r m q) m q' = cursorAt r m q' := rfl

end

/-- A good cursor is the one its position determines. -/
theorem Inv.cursorAt_self {s : State} (h : Inv s) (hb : s.regs.bstate = .bound) :
    cursorAt s.regs s.stream s.regs.p = s.regs := by
  have hs := s.regs.s_le
  have hp := s.regs.p_eq
  have hboff : s.regs.p / 8 = s.regs.boff := by omega
  have hsidx : BitVec.ofNat 3 (s.regs.p % 8) = s.regs.sidx := by
    rw [show s.regs.p % 8 = s.regs.sidx.toNat by rw [← Regs.s]; omega, BitVec.ofNat_toNat, BitVec.setWidth_eq]
  have hval : BitVec.ofNat 8 (s.stream.seg s.regs.p s.regs.w) = s.regs.val := by
    rw [← (h.bound_inv hb).val_eq, BitVec.ofNat_toNat, BitVec.setWidth_eq]
  rw [cursorAt, hboff, hsidx, hval, ← (h.bound_inv hb).curb_eq]

/-- A move to bit `bit` of byte `boff` that extracts from the stream's own bytes there ends at that position (R98, R103). -/
theorem movedRegs_eq_cursorAt {r : Regs} {m : Memory} {boff bit q : Nat} {cur lo : Byte} (hw : r.w ≤ 8) (hbit : bit ≤ 7)
    (hq : pos boff bit = q) (hcur : cur = m.readOrZero boff) (hlo : 8 < bit + r.w → lo = m.readOrZero (boff + 1)) :
    movedRegs r boff bit cur lo = cursorAt r m q := by
  have hboff : q / 8 = boff := by rw [pos] at hq; omega
  have hsidx : q % 8 = bit := by rw [pos] at hq; omega
  have hval : BitVec.ofNat 8 (m.seg q r.w) = extract cur lo bit r.w := by
    rw [← hq, m.seg_pos hbit hw hlo, ← hcur, BitVec.ofNat_toNat, BitVec.setWidth_eq]
  rw [cursorAt, hboff, hsidx, hval, ← hcur, movedRegs]

/-! MVL (R96 to R98). -/

theorem execMvl_of_atStart {s : State} (hb : s.regs.bstate = .bound) (ha : atStart s = true) :
    execMvl s = raise .boundaryViolation s := by
  simp only [execMvl, bindingError_eq_none.2 hb, ha, if_true]

/-- The position is a multiple of the width, so that one other than 0 has a whole segment to its left. -/
theorem Inv.w_le_p {s : State} (h : Inv s) (hb : s.regs.bstate = .bound) (hp : s.regs.p ≠ 0) : s.regs.w ≤ s.regs.p :=
  Nat.le_of_dvd (Nat.pos_of_ne_zero hp) (Nat.dvd_of_mod_eq_zero (h.bound_inv hb).aligned)

/-- Away from position 0 MVL lands one segment to the left, within CURB or in the byte before it. -/
theorem Inv.execMvl_eq {s : State} (h : Inv s) (hb : s.regs.bstate = .bound) (he : s.regs.empty = false)
    (hp0 : s.regs.p ≠ 0) :
    execMvl s = .next { s with
      regs := cursorAt s.regs s.stream (s.regs.p - s.regs.w)
      accesses := s.accesses ++ (if s.regs.w ≤ s.regs.s then [] else [.read (s.regs.boff - 1)])
      resp := some (okResponse 0 0 0) } := by
  have hwp := h.w_le_p hb hp0
  have hp := s.regs.p_eq
  have hs := s.regs.s_le
  have hw := h.width_le
  have ha : atStart s = false := atStart_eq_false.2 ⟨he, by omega⟩
  have hcurb := (h.bound_inv hb).curb_eq
  by_cases hsw : s.regs.w ≤ s.regs.s
  · have hpos : pos s.regs.boff (s.regs.s - s.regs.w) = s.regs.p - s.regs.w := by rw [pos]; omega
    have hregs := movedRegs_eq_cursorAt (lo := 0) hw (by omega) hpos hcurb (by omega)
    rw [execMvl_within hb ha hsw, if_pos hsw, List.append_nil, ← hregs, movedRegs]
  · have hboff : s.regs.boff ≠ 0 := by omega
    have hpos : pos (s.regs.boff - 1) (s.regs.s + 8 - s.regs.w) = s.regs.p - s.regs.w := by rw [pos]; omega
    have hinside := h.boff_le_len
    have hbyte := Memory.byteAt_of_lt h.stream_wf (i := s.regs.boff - 1) (by omega)
    have hlo : s.regs.curb = s.stream.readOrZero (s.regs.boff - 1 + 1) := by
      rw [hcurb, Nat.sub_add_cancel (Nat.pos_of_ne_zero hboff)]
    have hregs := movedRegs_eq_cursorAt hw (by omega) hpos rfl fun _ => hlo
    rw [execMvl_across hb ha (Nat.lt_of_not_le hsw) hboff hbyte, if_neg hsw, ← hregs, movedRegs]

/-- Settles O27: MVL's failure condition is position 0, or no byte at all. -/
theorem mvlMovesLeftOrFails : Obligations.MvlMovesLeftOrFails := by
  intro s h hb
  refine ⟨fun hstart => ?_, fun he hstart => ?_⟩
  · refine execMvl_of_atStart hb (Bool.eq_true_of_not_eq_false fun ha => ?_)
    obtain ⟨he, hs⟩ := atStart_eq_false.1 ha
    rcases hstart with he' | ⟨hboff, hsidx⟩
    · simp [he] at he'
    · exact absurd (hs hboff) (by simp [Regs.s, hsidx])
  · have hp0 : s.regs.p ≠ 0 := fun h0 => by
      rw [Regs.p_eq] at h0
      exact hstart ⟨by omega, BitVec.eq_of_toNat_eq (show s.regs.s = 0 by omega)⟩
    exact ⟨h.w_le_p hb hp0, h.execMvl_eq hb he hp0⟩

/-! MVR (R99, R100, R103). -/

theorem execMvr_of_empty {s : State} (hb : s.regs.bstate = .bound) (he : s.regs.empty = true) :
    execMvr s = raise .boundaryViolation s := by
  simp only [execMvr, bindingError_eq_none.2 hb, he, if_true]

theorem Regs.endbyte_eq (r : Regs) : endbyte r.boff r.s r.w = (r.p + r.w - 1) / 8 := rfl

/-- The registers that MVR installs are those of the position one segment to the right. -/
theorem Inv.mvrRegs_eq {s : State} (h : Inv s) (hb : s.regs.bstate = .bound) :
    mvrRegs s.regs s.stream = cursorAt s.regs s.stream (s.regs.p + s.regs.w) := by
  refine movedRegs_eq_cursorAt h.width_le (by omega) (pos_decByte_decBit _) ?_ fun hstraddle => if_pos hstraddle
  split
  · next hsame => rw [hsame, (h.bound_inv hb).curb_eq]
  · rfl

/-- Where the segment's last bit is in the stream, MVR lands one segment to the right. -/
theorem Inv.execMvr_eq {s : State} (h : Inv s) (hb : s.regs.bstate = .bound) (he : s.regs.empty = false)
    (hroom : s.regs.p + s.regs.w ≤ 8 * s.stream.len) :
    execMvr s = .next { s with
      regs := cursorAt s.regs s.stream (s.regs.p + s.regs.w)
      accesses := s.accesses ++ [.read ((s.regs.p + s.regs.w - 1) / 8)] ++
        (if (s.regs.p + s.regs.w) / 8 = s.regs.boff then [] else [.read ((s.regs.p + s.regs.w) / 8)]) ++
        (if (s.regs.p + s.regs.w) % 8 + s.regs.w ≤ 8 then [] else [.read ((s.regs.p + s.regs.w) / 8 + 1)])
      resp := some (okResponse 0 0 0) } := by
  have hw := h.width_pos
  have hprobe := Memory.byteAt_of_lt h.stream_wf (i := endbyte s.regs.boff s.regs.s s.regs.w)
    (by rw [Regs.endbyte_eq]; omega)
  rw [execMvr_of_probe hb he rfl hprobe, ← h.mvrRegs_eq hb, mvrRegs, movedRegs, Regs.endbyte_eq]
  simp only [← Nat.not_lt, ite_not]

/-- Where it is not, the probe meets the end of the stream. -/
theorem Inv.execMvr_of_past_end {s : State} (h : Inv s) (hb : s.regs.bstate = .bound) (he : s.regs.empty = false)
    (hend : 8 * s.stream.len < s.regs.p + s.regs.w) :
    execMvr s = .next { s with
      accesses := s.accesses ++ [.read ((s.regs.p + s.regs.w - 1) / 8)]
      resp := some (errResponse .boundaryViolation) } := by
  have hprobe : s.stream.byteAt (endbyte s.regs.boff s.regs.s s.regs.w) = none :=
    (Memory.byteAt_eq_none h.stream_wf).2 (by rw [Regs.endbyte_eq]; omega)
  rw [execMvr_of_eof hb he hprobe, Regs.endbyte_eq]

/-- Settles O28: the three paths of MVR. -/
theorem mvrMovesRightOrFails : Obligations.MvrMovesRightOrFails := fun _ h hb =>
  ⟨execMvr_of_empty hb, h.execMvr_of_past_end hb, h.execMvr_eq hb⟩

/-! The four success cases of MVR (R101), which need no invariant but the width's. -/

/-- Cases A and B: the new segment starts in the same byte. -/
theorem mvrRegs_of_same_byte {r : Regs} (m : Memory) (ht : r.s + r.w < 8) :
    mvrRegs r m = movedRegs r r.boff (r.s + r.w) r.curb
      (if 8 < r.s + r.w + r.w then m.readOrZero (r.boff + 1) else 0) := by
  have hp := r.p_eq
  rw [mvrRegs, show (r.p + r.w) / 8 = r.boff by omega, show (r.p + r.w) % 8 = r.s + r.w by omega, if_pos rfl]

/-- Cases C and D: it starts in the byte after. -/
theorem mvrRegs_of_next_byte {r : Regs} (m : Memory) (hw : r.w ≤ 8) (ht : 8 ≤ r.s + r.w) :
    mvrRegs r m = movedRegs r (r.boff + 1) (r.s + r.w - 8) (m.readOrZero (r.boff + 1))
      (if 8 < r.s + r.w - 8 + r.w then m.readOrZero (r.boff + 2) else 0) := by
  have hp := r.p_eq
  have hs := r.s_le
  rw [mvrRegs, show (r.p + r.w) / 8 = r.boff + 1 by omega, show (r.p + r.w) % 8 = r.s + r.w - 8 by omega,
    if_neg (Nat.succ_ne_self _)]

/-- Settles O29: in which byte the new segment starts, and whether it straddles into the next. -/
theorem mvrFourCases : Obligations.MvrFourCases := by
  intro s b hb he hw1 hw8 hprobe
  refine ⟨_, execMvr_of_probe hb he rfl hprobe, rfl, rfl, ?_⟩
  change (_ → mvrRegs s.regs s.stream = _) ∧ (_ → _ → mvrRegs s.regs s.stream = _) ∧
    (_ → _ → mvrRegs s.regs s.stream = _) ∧ (_ → _ → mvrRegs s.regs s.stream = _)
  refine ⟨fun hA => ?_, fun ht hB => ?_, fun ht hC => ?_, fun ht hD => ?_⟩
  · rw [mvrRegs_of_same_byte _ (by omega), if_neg hA.not_gt]
    rfl
  · rw [mvrRegs_of_same_byte _ ht, if_pos hB]
    rfl
  · rw [mvrRegs_of_next_byte _ hw8 ht, if_neg hC.not_gt]
    rfl
  · rw [mvrRegs_of_next_byte _ hw8 ht, if_pos hD]
    rfl

end Sys2Proof.Machine
end

section
/-!
PROOFS of 43_navigation.md, second part: the laws of navigation (R104, R105). A move to the left and one to the right undo
each other because a position determines its cursor, and MVR runs out of stream after `8*L / w` segments.
-/

namespace Sys2Proof.Machine

/-! There and back (R105). -/

theorem errResponse_ne_okResponse (e : Err) (d : Byte) (n : BitVec 8) (str : StrBus) :
    some (errResponse e) ≠ some (okResponse d n str) := fun h => by
  cases congrArg Response.ok (Option.some.inj h)

/-- `t` is a good state over the stream of `s` in which the cursor of `s` stands at position `q`. -/
structure MovedTo (q : Nat) (s t : State) : Prop where
  inv : Inv t
  regs : t.regs = cursorAt s.regs s.stream q
  stream : t.stream = s.stream

section
variable {s t : State} {q : Nat} (ht : MovedTo q s t)
include ht

theorem MovedTo.p : t.regs.p = q := by rw [ht.regs, cursorAt_p]

theorem MovedTo.w : t.regs.w = s.regs.w := by rw [ht.regs, cursorAt_w]

theorem MovedTo.bstate : t.regs.bstate = s.regs.bstate := by rw [ht.regs, cursorAt_bstate]

theorem MovedTo.empty : t.regs.empty = s.regs.empty := by rw [ht.regs, cursorAt_empty]

/-- Back at the position of a good state, the cursor is that of the state. -/
theorem MovedTo.back (h : Inv s) (hb : s.regs.bstate = .bound) : cursorAt t.regs t.stream s.regs.p = s.regs := by
  rw [ht.regs, ht.stream, cursorAt_cursorAt, h.cursorAt_self hb]

end

theorem Inv.movedTo_of_execMvr_ok {s t : State} (h : Inv s) (hb : s.regs.bstate = .bound) (ht : execMvr s = .next t)
    (hok : t.resp = some (okResponse 0 0 0)) : s.regs.empty = false ∧ MovedTo (s.regs.p + s.regs.w) s t := by
  have hinv := execMvr_keepsInv h ht
  cases he : s.regs.empty with
  | true =>
    rw [execMvr_of_empty hb he] at ht
    cases ht
    exact absurd hok (errResponse_ne_okResponse _ 0 0 0)
  | false =>
    rcases Nat.lt_or_ge (8 * s.stream.len) (s.regs.p + s.regs.w) with hend | hroom
    · rw [h.execMvr_of_past_end hb he hend] at ht
      cases ht
      exact absurd hok (errResponse_ne_okResponse _ 0 0 0)
    · rw [h.execMvr_eq hb he hroom] at ht
      cases ht
      exact ⟨rfl, hinv, rfl, rfl⟩

theorem Inv.movedTo_of_execMvl_ok {s t : State} (h : Inv s) (hb : s.regs.bstate = .bound) (ht : execMvl s = .next t)
    (hok : t.resp = some (okResponse 0 0 0)) :
    s.regs.empty = false ∧ s.regs.w ≤ s.regs.p ∧ MovedTo (s.regs.p - s.regs.w) s t := by
  have hinv := execMvl_keepsInv h ht
  cases ha : atStart s with
  | true =>
    rw [execMvl_of_atStart hb ha] at ht
    cases ht
    exact absurd hok (errResponse_ne_okResponse _ 0 0 0)
  | false =>
    obtain ⟨he, hs⟩ := atStart_eq_false.1 ha
    have hp0 : s.regs.p ≠ 0 := by
      rw [Regs.p_eq]
      omega
    rw [h.execMvl_eq hb he hp0] at ht
    cases ht
    exact ⟨he, h.w_le_p hb hp0, hinv, rfl, rfl⟩

/-- Settles O38: the second move lands where the first one started. -/
theorem navigationRoundTrip : Obligations.NavigationRoundTrip := by
  rintro i j s t h hb (⟨rfl, rfl⟩ | ⟨rfl, rfl⟩) ht hok
  · obtain ⟨he, hmoved⟩ := h.movedTo_of_execMvr_ok hb ht hok
    have hp0 : t.regs.p ≠ 0 := by
      have hw := h.width_pos
      rw [hmoved.p]
      omega
    refine ⟨_, hmoved.inv.execMvl_eq (hmoved.bstate.trans hb) (hmoved.empty.trans he) hp0, rfl, ?_, hmoved.stream⟩
    rw [hmoved.p, hmoved.w, Nat.add_sub_cancel]
    exact hmoved.back h hb
  · obtain ⟨he, hwp, hmoved⟩ := h.movedTo_of_execMvl_ok hb ht hok
    have hback : t.regs.p + t.regs.w = s.regs.p := by rw [hmoved.p, hmoved.w, Nat.sub_add_cancel hwp]
    have hroom : t.regs.p + t.regs.w ≤ 8 * t.stream.len := by
      rw [hback, hmoved.stream]
      exact h.position_inside
    refine ⟨_, hmoved.inv.execMvr_eq (hmoved.bstate.trans hb) (hmoved.empty.trans he) hroom, rfl, ?_, hmoved.stream⟩
    rw [hback]
    exact hmoved.back h hb

/-! MVR until it fails (R104). -/

theorem decode_mvr : decode 0x7000 = .ok .mvr := by
  obtain ⟨-, -, -, -, -, -, hmvr, -⟩ := exampleWordsDecode
  exact hmvr

theorem step_mvr {s : State} {inp : StepInput} {rest : List HostInput}
    (hq : s.inbox = .command { word := 0x7000, input := inp } :: rest) :
    step s = execMvr (present { word := 0x7000, input := inp } { s with inbox := rest }) :=
  (step_command hq).trans (runCommand_of_decode (i := .mvr) _ decode_mvr)

section
variable {s : State} {inp : StepInput} {rest : List HostInput}

/-- A queued MVR with room moves one segment to the right. -/
theorem Inv.step_mvr_of_room (h : Inv s) (hb : s.regs.bstate = .bound)
    (hq : s.inbox = .command { word := 0x7000, input := inp } :: rest)
    (hroom : s.regs.p + s.regs.w ≤ 8 * s.stream.len) :
    ∃ t : State, step s = .next t ∧ MovedTo (s.regs.p + s.regs.w) s t ∧ t.inbox = rest ∧
      t.resp = some (okResponse 0 0 0) := by
  have hw := h.width_pos
  have he := h.empty_eq_false hb (by omega)
  have hgood : Inv (present { word := 0x7000, input := inp } { s with inbox := rest }) := h.congr rfl rfl rfl
  have hstep := (step_mvr hq).trans (hgood.execMvr_eq hb he hroom)
  exact ⟨_, hstep, ⟨stepKeepsTheInvariant s _ h hstep, rfl, rfl⟩, rfl, rfl⟩

/-- A queued MVR without room answers BOUNDARY_VIOLATION where the cursor stands. -/
theorem Inv.step_mvr_of_past_end (h : Inv s) (hb : s.regs.bstate = .bound)
    (hq : s.inbox = .command { word := 0x7000, input := inp } :: rest)
    (hend : 8 * s.stream.len < s.regs.p + s.regs.w) :
    ∃ t : State, step s = .next t ∧ t.regs = s.regs ∧ t.resp = some (errResponse .boundaryViolation) := by
  have hgood : Inv (present { word := 0x7000, input := inp } { s with inbox := rest }) := h.congr rfl rfl rfl
  cases he : s.regs.empty with
  | true => exact ⟨_, (step_mvr hq).trans (execMvr_of_empty hb he), rfl, rfl⟩
  | false => exact ⟨_, (step_mvr hq).trans (hgood.execMvr_of_past_end hb he hend), rfl, rfl⟩

end

/-- A run one step longer is one more step from where the run ends. -/
theorem run_succ_of_next {M : Host.Core} {n : Nat} {s t : M.State} (h : M.run n s = .next t) :
    M.run (n + 1) s = M.step t := by
  induction n generalizing s with
  | zero =>
    cases h
    simp only [Host.Core.run]
    split <;> simp only [*]
  | succ n ih =>
    rw [Host.Core.run] at h ⊢
    cases hs : M.step s with
    | next u =>
      rw [hs] at h
      exact ih h
    | fault f => rw [hs] at h; cases h
    | refused r => rw [hs] at h; cases h

/-- From segment 0 with `k` MVRs queued, as many of them succeed one after another as there is room for. -/
theorem Inv.run_mvr {s : State} {inp : StepInput} {k : Nat} (h : Inv s) (hb : s.regs.bstate = .bound)
    (hp : s.regs.p = 0) (hq : s.inbox = List.replicate k (.command { word := 0x7000, input := inp })) {n : Nat}
    (hn : n ≤ k) (hroom : n * s.regs.w ≤ 8 * s.stream.len) :
    ∃ t : State, Sys2Proof.core.run n s = .next t ∧ MovedTo (n * s.regs.w) s t ∧
      t.inbox = List.replicate (k - n) (.command { word := 0x7000, input := inp }) ∧
      (0 < n → t.resp = some (okResponse 0 0 0)) := by
  induction n with
  | zero =>
    refine ⟨s, rfl, ⟨h, ?_, rfl⟩, hq, fun h0 => absurd h0 (Nat.lt_irrefl 0)⟩
    rw [Nat.zero_mul, ← hp, h.cursorAt_self hb]
  | succ n ih =>
    rw [Nat.succ_mul] at hroom ⊢
    obtain ⟨t, hrun, ht, hinbox, -⟩ := ih (by omega) (by omega)
    rw [show k - n = k - (n + 1) + 1 by omega, List.replicate_succ] at hinbox
    obtain ⟨u, hstep, hu, hrest, hresp⟩ := ht.inv.step_mvr_of_room (ht.bstate.trans hb) hinbox
      (by rw [ht.p, ht.w, ht.stream]; exact hroom)
    rw [ht.p, ht.w] at hu
    refine ⟨u, (run_succ_of_next hrun).trans hstep, ⟨hu.inv, ?_, hu.stream.trans ht.stream⟩, hrest, fun _ => hresp⟩
    rw [hu.regs, ht.regs, ht.stream, cursorAt_cursorAt]

/-- Settles O39: there is room for `8*L / w` segments and not for one more. -/
theorem repeatedMvrSucceedsFloorTimes : Obligations.RepeatedMvrSucceedsFloorTimes := by
  intro s inp h hb hp hq
  have hend : 8 * s.stream.len < (8 * s.stream.len / s.regs.w + 1) * s.regs.w :=
    Nat.mul_comm _ s.regs.w ▸ Nat.lt_mul_div_succ _ h.width_pos
  have hroom : ∀ n ≤ 8 * s.stream.len / s.regs.w, n * s.regs.w ≤ 8 * s.stream.len := fun _ =>
    Nat.mul_le_of_le_div _ _ _
  refine ⟨fun n hn => ?_, hend, ?_⟩
  · obtain ⟨t, ht, hmoved, -, hresp⟩ := h.run_mvr hb hp hq (Nat.le_succ_of_le hn) (hroom n hn)
    exact ⟨t, ht, hmoved.p, hmoved.stream, hresp⟩
  · obtain ⟨t, ht, hmoved, hinbox, -⟩ := h.run_mvr hb hp hq (Nat.le_succ _) (hroom _ (Nat.le_refl _))
    rw [Nat.add_sub_cancel_left] at hinbox
    obtain ⟨u, hstep, hregs, hresp⟩ := hmoved.inv.step_mvr_of_past_end (hmoved.bstate.trans hb) hinbox
      (by rw [hmoved.p, hmoved.w, hmoved.stream, ← Nat.succ_mul]; exact hend)
    exact ⟨u, (run_succ_of_next ht).trans hstep, by rw [hregs, hmoved.p], hresp⟩

end Sys2Proof.Machine
end

section
/-!
PROOFS of 60_exceptions.md: the cursor that is not bound (R109), what an error response leaves as it was (R107, R111), and the
idle core (R120).
-/

namespace Sys2Proof.Machine

/-! The idle core (R120). -/

/-- A state that a step leaves as it is stays as it is, however long the run. -/
theorem run_of_step_self {M : Host.Core} {s : M.State} (h : M.step s = .next s) (n : Nat) : M.run n s = .next s := by
  induction n with
  | zero => rfl
  | succ n ih => rw [Host.Core.run, h]; exact ih

/-- Settles O51: a step without input leaves the state, and so does every run of such steps. -/
theorem idleCoreKeepsItsState : Obligations.IdleCoreKeepsItsState :=
  fun _ hq => ⟨step_idle hq, run_of_step_self (step_idle hq)⟩

/-! The cursor that is not bound (R109). -/

/-- The six commands that need a bound cursor: all but INIT and MASK. -/
def NeedsCursor : Instr → Prop
  | .init _ => False
  | .mask _ _ => False
  | _ => True

/-- The binding check comes before every other check of a decoded command (R110). -/
theorem exec_of_bindingError {i : Instr} {s : State} {e : Err} (hi : NeedsCursor i) (he : bindingError s = some e) :
    exec i s = raise e s := by
  cases i with
  | init w => exact hi.elim
  | get => simp only [exec, execGet, he]
  | gets => simp only [exec, execGets, he]
  | set v => simp only [exec, execSet, he]
  | sets n => simp only [exec, execSets, he]
  | mvl => simp only [exec, execMvl, he]
  | mvr => simp only [exec, execMvr, he]
  | mask zl zc => exact hi.elim

theorem exec_mask_answers_ok (zl : Bool) (zc : Nat) (s : State) :
    ∃ (t : State) (r : Response), exec (.mask zl zc) s = .next t ∧ t.resp = some r ∧ r.ok = true := by
  rcases Nat.lt_or_ge 8 zc with h | h
  · exact ⟨_, _, exec_mask_of_gt zl h s, rfl, rfl⟩
  · exact ⟨_, _, exec_mask_of_le zl h s, rfl, rfl⟩

theorem exec_init_binds (wreq : Nat) {s : State} (ho : s.input.openOk = true) (hwf : s.stream.wf = true) :
    ∃ t : State, exec (.init wreq) s = .next t ∧ t.regs.bstate = .bound := by
  rcases Nat.eq_zero_or_pos s.stream.len with hl | hl
  · exact ⟨_, exec_init_of_emptyStream wreq ho hl, rfl⟩
  · exact ⟨_, exec_init_of_byteZero wreq ho hl.ne' (Memory.byteAt_of_lt hwf hl), rfl⟩

/-- Settles O31: the six commands stop at the binding check, and neither MASK nor INIT makes it. -/
theorem unusableCursorRefuses : Obligations.UnusableCursorRefuses := by
  intro s
  refine ⟨fun i hi => ?_, fun zl zc => exec_mask_answers_ok zl zc s, fun wreq => exec_init_binds wreq⟩
  have hneeds : NeedsCursor i := by rcases hi with rfl | rfl | ⟨v, rfl⟩ | ⟨n, rfl⟩ | rfl | rfl <;> trivial
  exact ⟨fun hb => exec_of_bindingError hneeds (bindingError_eq_some.2 (.inl ⟨hb, rfl⟩)),
    fun hb => exec_of_bindingError hneeds (bindingError_eq_some.2 (.inr ⟨hb, rfl⟩))⟩

/-! Errors are precise (R107, R111). -/

/-- What R107, R108 and R111 let the command `i` leave when it answers the error `e` from the state `s`. -/
def AllowedError (i : Instr) (s : State) (e : Err) (t : State) : Prop :=
  ((∀ w, i ≠ .init w) → t.regs = s.regs) ∧ ((∃ w, i = .init w) → e = .streamOpenError) ∧
    e ≠ .illegalCommand ∧ t.stream = s.stream ∧ t.draws = s.draws

/-- Whatever error `o` answers is allowed to the command `i` from the state `s`. -/
def ErrsAs (i : Instr) (s : State) (o : Host.Outcome State Fault Refusal) : Prop :=
  ∀ (t : State) (r : Response), o = .next t → t.resp = some r → r.ok = false →
    ∃ e, r = errResponse e ∧ AllowedError i s e t

section
variable {i : Instr} {s : State}

theorem errsAs_raise {e : Err} {u : State} (h : AllowedError i s e u) : ErrsAs i s (raise e u) := by
  intro t r ht hr _
  obtain rfl := raise_eq_next.1 ht
  cases hr
  exact ⟨e, rfl, h⟩

theorem errsAs_ok {t : State} {d : Byte} {n : BitVec 8} {str : StrBus} (h : t.resp = some (okResponse d n str)) :
    ErrsAs i s (.next t) := by
  rintro _ r ⟨⟩ hr hok
  cases hr.symm.trans h
  cases hok

theorem errsAs_respond (d : Byte) (n : BitVec 8) (str : StrBus) (u : State) : ErrsAs i s (respond d n str u) :=
  errsAs_ok rfl

theorem errsAs_fault (f : Fault) : ErrsAs i s (.fault f) := nofun

theorem errsAs_writeSegment (v : Byte) : ErrsAs i s (writeSegment v s) := by
  intro t r ht
  obtain ⟨s', -, rfl⟩ := writeSegment_eq_next.1 ht
  exact errsAs_ok rfl _ r rfl

theorem allowedError_of_needsCursor {e : Err} (hi : NeedsCursor i) (he : e ≠ .illegalCommand) :
    AllowedError i s e s := by
  refine ⟨fun _ => rfl, ?_, he, rfl, rfl⟩
  rintro ⟨w, rfl⟩
  exact hi.elim

theorem errsAs_raise_self {e : Err} (hi : NeedsCursor i) (he : e ≠ .illegalCommand) : ErrsAs i s (raise e s) :=
  errsAs_raise (allowedError_of_needsCursor hi he)

theorem bindingError_ne_illegalCommand {e : Err} (h : bindingError s = some e) : e ≠ .illegalCommand := by
  rcases bindingError_eq_some.1 h with ⟨-, rfl⟩ | ⟨-, rfl⟩ <;> nofun

/-- A command that needs a cursor raises only the binding error while it has none, so its own checks are what is left. -/
theorem errsAs_of_bound (hi : NeedsCursor i) (h : s.regs.bstate = .bound → ErrsAs i s (exec i s)) :
    ErrsAs i s (exec i s) := by
  cases he : bindingError s with
  | some e =>
    rw [exec_of_bindingError hi he]
    exact errsAs_raise_self hi (bindingError_ne_illegalCommand he)
  | none => exact h (bindingError_eq_none.1 he)

end

/-! The commands, one by one: INIT and MASK, and the other six with a bound cursor. -/

theorem exec_init_errsAs (wreq : Nat) (s : State) : ErrsAs (.init wreq) s (exec (.init wreq) s) := by
  cases ho : s.input.openOk with
  | false =>
    rw [exec_init_of_openFails wreq ho]
    exact errsAs_raise ⟨fun hi => absurd rfl (hi wreq), fun _ => rfl, nofun, rfl, rfl⟩
  | true =>
    by_cases hl : s.stream.len = 0
    · rw [exec_init_of_emptyStream wreq ho hl]
      exact errsAs_respond _ _ _ _
    · cases hb : s.stream.byteAt 0 with
      | none =>
        rw [exec_init_of_noByteZero wreq ho hl hb]
        exact errsAs_fault _
      | some b =>
        rw [exec_init_of_byteZero wreq ho hl hb]
        exact errsAs_respond _ _ _ _

theorem exec_mask_errsAs (zl : Bool) (zc : Nat) (s : State) : ErrsAs (.mask zl zc) s (exec (.mask zl zc) s) := by
  rcases Nat.lt_or_ge 8 zc with h | h
  · rw [exec_mask_of_gt zl h]
    exact errsAs_respond _ _ _ _
  · rw [exec_mask_of_le zl h]
    exact errsAs_respond _ _ _ _

section
variable {s : State} (hb : s.regs.bstate = .bound)
include hb

theorem exec_set_errsAs (v : Nat) : ErrsAs (.set v) s (exec (.set v) s) := by
  rcases Nat.lt_or_ge v (2 ^ s.regs.w) with hv | hv
  · have hset : exec (.set v) s = writeSegment (BitVec.ofNat 8 v) s := execSet_of_lt hb hv
    rw [hset]
    exact errsAs_writeSegment _
  · rw [setRejectsAWideValue v s hb hv]
    exact errsAs_raise_self trivial nofun

theorem exec_sets_errsAs (n : Nat) : ErrsAs (.sets n) s (exec (.sets n) s) := by
  cases hv : stringOperand n s with
  | none =>
    rw [exec_sets_of_stringOperand_eq_none hb hv]
    exact errsAs_raise_self trivial nofun
  | some v =>
    simp only [exec, execSets, bindingError_eq_none.2 hb, hv]
    split
    · exact errsAs_raise_self trivial nofun
    · exact errsAs_writeSegment _

theorem exec_mvl_errsAs : ErrsAs .mvl s (exec .mvl s) := by
  change ErrsAs .mvl s (execMvl s)
  cases ha : atStart s with
  | true =>
    rw [execMvl_of_atStart hb ha]
    exact errsAs_raise_self trivial nofun
  | false =>
    simp only [execMvl, bindingError_eq_none.2 hb, ha, Bool.false_eq_true, if_false]
    split_ifs
    · exact errsAs_respond _ _ _ _
    · exact errsAs_fault _
    · split
      · exact errsAs_fault _
      · exact errsAs_respond _ _ _ _

theorem exec_mvr_errsAs : ErrsAs .mvr s (exec .mvr s) := by
  change ErrsAs .mvr s (execMvr s)
  cases he : s.regs.empty with
  | true =>
    rw [execMvr_of_empty hb he]
    exact errsAs_raise_self trivial nofun
  | false =>
    cases hr : s.stream.byteAt (endbyte s.regs.boff s.regs.s s.regs.w) with
    | none =>
      rw [execMvr_of_eof hb he hr]
      exact errsAs_raise (u := s.addAccess _) (allowedError_of_needsCursor (s := s) trivial nofun)
    | some x =>
      rw [execMvr_of_probe hb he rfl hr]
      exact errsAs_ok rfl

end

theorem exec_errsAs (i : Instr) (s : State) : ErrsAs i s (exec i s) := by
  cases i with
  | init wreq => exact exec_init_errsAs wreq s
  | get =>
    refine errsAs_of_bound trivial fun hb => ?_
    rw [exec_get_of_bound hb]
    exact errsAs_respond _ _ _ _
  | gets =>
    refine errsAs_of_bound trivial fun hb => ?_
    rw [exec_gets_of_bound hb]
    exact errsAs_respond _ _ _ _
  | set v => exact errsAs_of_bound trivial fun hb => exec_set_errsAs hb v
  | sets n => exact errsAs_of_bound trivial fun hb => exec_sets_errsAs hb n
  | mvl => exact errsAs_of_bound trivial exec_mvl_errsAs
  | mvr => exact errsAs_of_bound trivial exec_mvr_errsAs
  | mask zl zc => exact exec_mask_errsAs zl zc s

/-- A decoded command is none of the illegal words, so its codes end at 4 (R108). -/
theorem Err.code_bounds {e : Err} (he : e ≠ .illegalCommand) : 1 ≤ e.code.toNat ∧ e.code.toNat ≤ 4 := by
  cases e with
  | illegalCommand => exact absurd rfl he
  | _ => decide

/-- Settles O32: the response is `errResponse` of an error that the command may raise. -/
theorem errorsChangeNothing : Obligations.ErrorsChangeNothing := by
  intro i s t r ht hr hok
  obtain ⟨e, rfl, hregs, hinit, hlegal, hstream, hdraws⟩ := exec_errsAs i s t r ht hr hok
  obtain ⟨hlow, hhigh⟩ := Err.code_bounds hlegal
  exact ⟨hregs, fun hi => congrArg Err.code (hinit hi), hstream, hdraws, hlow, hhigh, rfl, rfl, rfl⟩

end Sys2Proof.Machine
end

section
/-!
PROOFS of 70_reset_and_hazards.md: reset between commands (R121), reset during one (R122), and new stream contents (R126,
R127). A reset during a command keeps a prefix of the command's writes, so it turns on what those writes are and on where a
prefix of them meets the capacity.
-/

namespace Sys2Proof.Machine

/-! Reset between commands (R121). -/

theorem step_reset {s : State} {rest : List HostInput} (hq : s.inbox = .reset :: rest) :
    step s = .next (resetEvent { s with inbox := rest }) :=
  step_input hq

/-- Settles O6: `State.reset` and the reset event install the same registers. -/
theorem resetSetsTheListedValues : Obligations.ResetSetsTheListedValues :=
  ⟨rfl, rfl, rfl, fun _ _ hq => step_reset hq⟩

/-! New stream contents (R126, R127). -/

theorem Memory.byteAt_ofBytesFrom (n : Nat) (bs : List Byte) (k : Nat) :
    (Memory.ofBytesFrom n bs).byteAt (n + k) = bs[k]? := by
  induction bs generalizing n k with
  | nil => rfl
  | cons b bs ih =>
    rw [Memory.ofBytesFrom, Memory.byteAt_cons]
    cases k with
    | zero => exact if_pos rfl
    | succ k => rw [if_neg (by omega), show n + (k + 1) = n + 1 + k by omega, ih, List.getElem?_cons_succ]

/-- The stream of a byte sequence reads those bytes, and end-of-file past them (R37, R40). -/
theorem Memory.byteAt_ofBytes (bs : List Byte) (i : Nat) : (Memory.ofBytes bs).byteAt i = bs[i]? := by
  have h := Memory.byteAt_ofBytesFrom 0 bs i
  rwa [Nat.zero_add] at h

/-- Settles O8: the checks of `loadStream` in their order, then the stream of the given bytes. -/
theorem loadStreamReplacesTheContents : Obligations.LoadStreamReplacesTheContents := by
  intro s bytes rest hq
  have hstep : step s = loadStream bytes { s with inbox := rest } := step_input hq
  rw [hstep]
  refine ⟨fun hb => if_pos hb, fun hb hlong => (if_neg hb).trans (if_pos hlong), fun hb hfits => ?_⟩
  exact ⟨Memory.ofBytes bytes, (if_neg hb).trans (if_neg (Nat.not_lt.2 hfits)), Memory.len_ofBytesFrom 0 bytes,
    Memory.byteAt_ofBytes bytes⟩

/-! The writes of a command (R53, R90 to R92, R95). -/

/-- The writes that put a number into the segment, as R90 to R92 list them. -/
theorem segmentWrites_ofNat (v : Nat) (s : State) :
    segmentWrites (BitVec.ofNat 8 v) s =
      if s.regs.empty then [(0, BitVec.ofNat 8 (v * 2 ^ (8 - s.regs.w)))]
      else if s.regs.s + s.regs.w ≤ 8 then
        [(s.regs.boff, insertSingle s.regs.curb s.regs.s s.regs.w (BitVec.ofNat 8 v))]
      else
        [(s.regs.boff, insertHi s.regs.curb s.regs.s s.regs.w (BitVec.ofNat 8 v)),
          (s.regs.boff + 1,
            insertLo (s.stream.readOrZero (s.regs.boff + 1)) s.regs.s s.regs.w (BitVec.ofNat 8 v))] := by
  split_ifs with he hsw
  · rw [segmentWrites_of_empty _ he, ofNat_shiftLeft]
  · exact segmentWrites_of_single _ (Bool.eq_false_iff.2 he) hsw
  · exact segmentWrites_of_straddle _ (Bool.eq_false_iff.2 he) (Nat.not_le.1 hsw)

/-- A string operand of another length, or with another character up to WIDTH, has no value (R95). -/
theorem stringOperand_eq_none {n : Nat} {s : State}
    (h : n ≠ s.regs.w ∨
      ∃ j : Nat, j < s.regs.w ∧ strChar s.input.cstr j ≠ 0x30#8 ∧ strChar s.input.cstr j ≠ 0x31#8) :
    stringOperand n s = none := by
  rcases h with hlen | ⟨j, hj, h0, h1⟩
  · exact if_neg hlen
  · unfold stringOperand
    rw [strValue_eq_none hj h0 h1, ite_self]

/-- SET of a value below `2^WIDTH` and SETS of its digits make the same writes (R95). -/
theorem commandWrites_of_digits {i : Instr} {v : Nat} {s : State} (hb : s.regs.bstate = .bound) (hv : v < 2 ^ s.regs.w)
    (hi : i = .set v ∨ (i = .sets s.regs.w ∧ SpellsDigits s.input.cstr s.regs.w v)) :
    commandWrites i s = segmentWrites (BitVec.ofNat 8 v) s :=
  commandWrites_of_accepted hb hv (hi.imp_right (.imp_right (stringOperand_of_spellsDigits hv)))

theorem commandWrites_of_not_bound (i : Instr) {s : State} (hb : s.regs.bstate ≠ .bound) : commandWrites i s = [] :=
  (commandWrites_cases i s).elim id fun ⟨hbound, _⟩ => absurd hbound hb

theorem commandWrites_set_of_wide {v : Nat} {s : State} (hv : 2 ^ s.regs.w ≤ v) : commandWrites (.set v) s = [] := by
  have hwide : tooWide v s = true := decide_eq_true hv
  unfold commandWrites
  split
  · rfl
  · exact if_pos hwide

theorem commandWrites_sets_of_rejected {n : Nat} {s : State} (hn : stringOperand n s = none) :
    commandWrites (.sets n) s = [] := by
  unfold commandWrites
  split
  · rfl
  · simp only [hn]

/-- A command that runs to its end leaves the stream with all of its writes (R53). -/
theorem exec_stream {i : Instr} {s u : State} (h : exec i s = .next u) :
    u.stream = (commandWrites i s).foldl (fun m x => m.put x.1 x.2) s.stream := by
  have hother (hset : ∀ v, i ≠ .set v) (hsets : ∀ n, i ≠ .sets n) :
      u.stream = (commandWrites i s).foldl (fun m x => m.put x.1 x.2) s.stream := by
    obtain ⟨hstream, -⟩ := onlySegmentWritesTouchTheStream i s u hset hsets h
    rw [commandWrites_of_other s hset hsets]
    exact hstream
  cases i with
  | set v => exact execSet_stream h
  | sets n => exact execSets_stream h
  | _ => exact hother nofun nofun

/-! Where a sequence of writes meets the capacity (R41). -/

theorem memWrite_params {i : Nat} {v : Byte} {s t : State} (h : memWrite i v s = .ok t) : t.params = s.params := by
  obtain ⟨-, -, rfl⟩ := memWrite_eq_ok.1 h
  rfl

/-- Writes that are answered, from a stream within its capacity, lie below the capacity. -/
theorem StreamInv.lt_capacity_of_memWrites {ws : List (Nat × Byte)} {s t : State} (h : StreamInv s)
    (ht : Machine.memWrites ws s = .ok t) : ∀ x ∈ ws, x.1 < s.params.streamCapacity := by
  induction ws generalizing s with
  | nil => nofun
  | cons w ws ih =>
    obtain ⟨s', hfirst, hrest⟩ := memWrites_cons_eq_ok.1 ht
    have hparams : s'.params = s.params := memWrite_params hfirst
    obtain ⟨hle, hroom, -⟩ := memWrite_eq_ok.1 hfirst
    have hfits := h.fits
    rw [List.forall_mem_cons, ← hparams]
    refine ⟨?_, ih (h.memWrite hfirst) hrest⟩
    rw [hparams]
    omega

/-- Writes that end in StreamFull name an index at or past the capacity. -/
theorem exists_capacity_le_of_memWrites {ws : List (Nat × Byte)} {s : State}
    (h : memWrites ws s = .error .streamFull) : ∃ x ∈ ws, s.params.streamCapacity ≤ x.1 := by
  induction ws generalizing s with
  | nil => cases h
  | cons w ws ih =>
    rw [List.exists_mem_cons_iff]
    rcases memWrites_cons_eq_error.1 h with hfirst | ⟨s', hfirst, hrest⟩
    · rcases memWrite_eq_error.1 hfirst with ⟨-, hbroken⟩ | ⟨heq, hcap, -⟩
      · cases hbroken
      · exact .inl (by omega)
    · have hparams : s'.params = s.params := memWrite_params hfirst
      rw [← hparams]
      exact .inr (ih hrest)

/-! Reset during a command (R122). -/

/-- A reset during an illegal command finds no write of it. -/
theorem abortCommand_of_illegal {c : Command} {k : Nat} {s : State} (h : ∃ e, decode c.word = .error e) :
    abortCommand c k s = .next (resetEvent (present c s)) := by
  obtain ⟨e, he⟩ := h
  simp only [abortCommand, he]

section
variable {c : Command} {k : Nat} {i : Instr} {s : State}

/-- Where the first `k` writes lie below the capacity, they are in the stream and in the record. -/
theorem Inv.abortCommand_of_lt_capacity (h : Inv (present c s)) (hi : decode c.word = .ok i)
    (hlt : ∀ x ∈ (commandWrites i (present c s)).take k, x.1 < s.params.streamCapacity) :
    abortCommand c k s = .next { resetEvent (present c s) with
      stream := ((commandWrites i (present c s)).take k).foldl (fun m x => m.put x.1 x.2) s.stream
      accesses := ((commandWrites i (present c s)).take k).map fun x => .write x.1 x.2 } := by
  rw [abortCommand_of_decode hi]
  cases hw : memWrites ((commandWrites i (present c s)).take k) (present c s) with
  | ok s' =>
    rw [memWrites_eq hw]
    rfl
  | error f =>
    obtain ⟨⟨rfl, -⟩, -⟩ := h.commandWrites_take_eq_error hw
    obtain ⟨x, hx, hcap⟩ := exists_capacity_le_of_memWrites hw
    exact absurd (hlt x hx) (Nat.not_lt.2 hcap)

/-- Where one of the first `k` writes lies at or past the capacity, it is the fault of R41. -/
theorem Inv.abortCommand_of_capacity_le (h : Inv (present c s)) (hi : decode c.word = .ok i)
    (hcap : ∃ x ∈ (commandWrites i (present c s)).take k, s.params.streamCapacity ≤ x.1) :
    abortCommand c k s = .fault .streamFull := by
  rw [abortCommand_of_decode hi]
  cases hw : memWrites ((commandWrites i (present c s)).take k) (present c s) with
  | ok s' =>
    obtain ⟨x, hx, hle⟩ := hcap
    exact absurd (h.streamInv.lt_capacity_of_memWrites hw x hx) (Nat.not_lt.2 hle)
  | error f =>
    obtain ⟨⟨rfl, -⟩, -⟩ := h.commandWrites_take_eq_error hw
    rfl

end

/-- Settles O7: the listed writes are `commandWrites` of the command at the port. -/
theorem resetDuringCommandLeavesAPrefix : Obligations.ResetDuringCommandLeavesAPrefix := by
  intro s c k rest h hq
  have hstep : step s = abortCommand c k { s with inbox := rest } := step_input hq
  have hgood : Inv (present c { s with inbox := rest }) := h.congr rfl rfl rfl
  rw [hstep]
  refine ⟨abortCommand_of_illegal, fun i ws hi hcases => ?_⟩
  have hws : commandWrites i (present c { s with inbox := rest }) = ws := by
    rcases hcases with ⟨v, hb, hv, haccepted, rfl⟩ | ⟨rfl, hb | ⟨v, rfl, hv⟩ | ⟨n, rfl, hn⟩ | ⟨hset, hsets⟩⟩
    · exact (commandWrites_of_digits (s := present c { s with inbox := rest }) hb hv haccepted).trans
        (segmentWrites_ofNat v _)
    · exact commandWrites_of_not_bound i hb
    · exact commandWrites_set_of_wide hv
    · exact commandWrites_sets_of_rejected (stringOperand_eq_none hn)
    · exact commandWrites_of_other _ hset hsets
  subst hws
  exact ⟨hgood.abortCommand_of_lt_capacity hi, hgood.abortCommand_of_capacity_le hi, fun _ => exec_stream⟩

end Sys2Proof.Machine
end
